-- ==== Sys2Proof/Word.lean ====
section
/-! DEFINITION. The word types of the core (00_scope.md R9, R10): bytes, 24-bit operands and data, 32-bit
command and response words. -/

namespace Sys2Proof

/-- `u8`: a symbol, a rank, a byte of `BUF` (R10). -/
abbrev Byte := BitVec 8

/-- `uAW`, `AW = 24`: an operand, a response's data, a buffer length (R6, R10). -/
abbrev Data := BitVec 24

/-- A command word or a response word, `CW = 32` (R6, R70, R72). -/
abbrev Word := BitVec 32

end Sys2Proof
end

