-- ==== Sys2Proof/Syntax.lean ====
section
/-! DEFINITION. The command set: one constructor per row of spec/opcode_table.json (30_encoding.md R71, R73). -/

namespace Sys2Proof

/-- The thirteen commands with their operands (R71, R77: no operand is extended, scaled or shifted). -/
inductive Instr where
  /-- `NOP` (R175). -/
  | nop
  /-- `MTF.SETSIZE size` (R176). -/
  | mtfSetsize (size : Data)
  /-- `MTF.FWD len` (R115). -/
  | mtfFwd (len : Data)
  /-- `MTF.INV len` (R126). -/
  | mtfInv (len : Data)
  /-- `MTF.FBEGIN` (R95). -/
  | mtfFbegin
  /-- `MTF.FSYM sym` (R110). -/
  | mtfFsym (sym : Byte)
  /-- `MTF.IBEGIN` (R121). -/
  | mtfIbegin
  /-- `MTF.ISYM rank` (R123). -/
  | mtfIsym (rank : Byte)
  /-- `RGE.CFG logBase, signed` (R136). -/
  | rgeCfg (signed : Bool) (logBase : Byte)
  /-- `RGE.ENC val` (R146). -/
  | rgeEnc (val : Byte)
  /-- `RGD.CFG logBase, signed` (R156). -/
  | rgdCfg (signed : Bool) (logBase : Byte)
  /-- `RGD.DEC` (R166). -/
  | rgdDec
  /-- `RDCSR csr` (R177). -/
  | rdcsr (csr : Byte)
deriving DecidableEq, Repr

end Sys2Proof
end

