-- ==== Sys2Proof/WellFormed.lean ====
section
/-! DEFINITION. Which instructions have a legal encoding: every operand the fields of R71 can hold, but for the
register numbers R75 makes illegal. -/

namespace Sys2Proof

/-- R75: an `RDCSR` whose `csr` is 4 or more is an illegal word; every other operand value is encodable and legal
as an encoding (R84; an out-of-range `logBase` decodes and is refused by the command). -/
def Instr.wellFormed : Instr → Bool
  | .rdcsr csr => decide (csr.toNat < 4)
  | .nop | .mtfSetsize _ | .mtfFwd _ | .mtfInv _ | .mtfFbegin | .mtfFsym _ | .mtfIbegin | .mtfIsym _
  | .rgeCfg _ _ | .rgeEnc _ | .rgdCfg _ _ | .rgdDec => true

end Sys2Proof
end

