-- ==== Sys2Proof/Decode.lean ====
section
/-! DEFINITION. Decoding a command word, total and rejecting by name (30_encoding.md R70 to R77), and the encoder
(R73, R83). -/

namespace Sys2Proof

/-- Why a command word is illegal. -/
inductive DecodeError where
  /-- R74: the opcode is one of `0x0D` to `0xFF`. -/
  | reservedOpcode
  /-- R75: a 1 in a field that R71 marks zero. -/
  | nonzeroField
  /-- R75: an `RDCSR` of register 4 or more. -/
  | csrOutOfRange
deriving DecidableEq, Repr

/-- `op = w[31:24]` (R70). -/
def opField (w : Word) : Byte := w.extractLsb' 24 8

/-- `arg = w[23:0]` (R70). -/
def argField (w : Word) : Data := w.extractLsb' 0 24

/-- `arg[7:0]`, the byte operands (R71, R77). -/
def byteField (w : Word) : Byte := w.extractLsb' 0 8

/-- `arg[8]`, the field `signed` (R71). -/
def signedField (w : Word) : Bool := w.getLsbD 8

/-- The must-be-zero field of a command whose operands end below bit `n`: `arg[23:n]` (R71). -/
def zeroAbove (n : Nat) (w : Word) : Bool := argField w >>> n == 0

/-- The decoder: every word is one command of R73 or is refused by name (R76). -/
def decode (w : Word) : Except DecodeError Instr :=
  match (opField w).toNat with
  | 0x00 => if zeroAbove 0 w then .ok .nop else .error .nonzeroField
  | 0x01 => .ok (.mtfSetsize (argField w))
  | 0x02 => .ok (.mtfFwd (argField w))
  | 0x03 => .ok (.mtfInv (argField w))
  | 0x04 => if zeroAbove 0 w then .ok .mtfFbegin else .error .nonzeroField
  | 0x05 => if zeroAbove 8 w then .ok (.mtfFsym (byteField w)) else .error .nonzeroField
  | 0x06 => if zeroAbove 0 w then .ok .mtfIbegin else .error .nonzeroField
  | 0x07 => if zeroAbove 8 w then .ok (.mtfIsym (byteField w)) else .error .nonzeroField
  | 0x08 => if zeroAbove 9 w then .ok (.rgeCfg (signedField w) (byteField w)) else .error .nonzeroField
  | 0x09 => if zeroAbove 8 w then .ok (.rgeEnc (byteField w)) else .error .nonzeroField
  | 0x0A => if zeroAbove 9 w then .ok (.rgdCfg (signedField w) (byteField w)) else .error .nonzeroField
  | 0x0B => if zeroAbove 0 w then .ok .rgdDec else .error .nonzeroField
  | 0x0C =>
    if zeroAbove 8 w then
      if (byteField w).toNat < 4 then .ok (.rdcsr (byteField w)) else .error .csrOutOfRange
    else .error .nonzeroField
  | _ => .error .reservedOpcode

/-- The opcode of a command (R73). -/
def Instr.opcode : Instr → Byte
  | .nop => 0x00
  | .mtfSetsize _ => 0x01
  | .mtfFwd _ => 0x02
  | .mtfInv _ => 0x03
  | .mtfFbegin => 0x04
  | .mtfFsym _ => 0x05
  | .mtfIbegin => 0x06
  | .mtfIsym _ => 0x07
  | .rgeCfg _ _ => 0x08
  | .rgeEnc _ => 0x09
  | .rgdCfg _ _ => 0x0A
  | .rgdDec => 0x0B
  | .rdcsr _ => 0x0C

/-- The 24-bit operand of a command (R71). -/
def Instr.operand : Instr → Data
  | .nop | .mtfFbegin | .mtfIbegin | .rgdDec => 0
  | .mtfSetsize n | .mtfFwd n | .mtfInv n => n
  | .mtfFsym b | .mtfIsym b | .rgeEnc b | .rdcsr b => b.setWidth 24
  | .rgeCfg signed b | .rgdCfg signed b => (BitVec.ofBool signed ++ b).setWidth 24

/-- The encoder: `{op, arg}` (R70, R83). -/
def encode (i : Instr) : Word := i.opcode ++ i.operand

/-- The `mask` column of R73: the bits of a word that select the command. -/
def Instr.mask : Instr → Word
  | .nop | .mtfFbegin | .mtfIbegin | .rgdDec => 0xFFFFFFFF
  | .mtfSetsize _ | .mtfFwd _ | .mtfInv _ => 0xFF000000
  | .mtfFsym _ | .mtfIsym _ | .rgeEnc _ | .rdcsr _ => 0xFFFFFF00
  | .rgeCfg _ _ | .rgdCfg _ _ => 0xFFFFFE00

/-- The `match` column of R73. -/
def Instr.matchBits (i : Instr) : Word := i.opcode ++ (0 : Data)

/-- The instruction the decoder reads from a word of `nbits` bits numbered as spec/opcode_table.json numbers them:
one 32-bit word, so the number is the word. -/
def decodeTableWord (nbits w : Nat) : Option Instr :=
  match decode (BitVec.ofNat 32 (w % 2 ^ nbits)) with
  | .ok i => some i
  | .error _ => none

end Sys2Proof
end

