-- ==== Sys2Proof/Config.lean ====
section
/-! DEFINITION. The parameters of the core (00_scope.md R6) at the values this hardware takes, and the one free
value the spec leaves to the environment (20_memory.md R65). -/

namespace Sys2Proof.Config

/-- `NSYM`: size of the alphabet. -/
def nsym : Nat := 256

/-- `BLEN`: canonical length of the buckets 1 to 15. -/
def blen : Nat := 17

/-- `B0LEN`: canonical length of bucket 0. -/
def b0len : Nat := 1

/-- `THRESH`: rebalance threshold on `LEN[0]`; the test is strict (R107, log 19). -/
def thresh : Nat := 64

/-- `LMIN`, the least legal `logBase`. -/
def lmin : Nat := 1

/-- `LMAX`, the largest legal `logBase`. -/
def lmax : Nat := 7

/-- The number of indices of `BUF`, `2^AW` (R50, R56). -/
def bufSize : Nat := 2 ^ 24

/-- What a byte of `BUF` that nothing has written reads as. DESIGN CHOICE (log 3), unsafe. -/
def unlistedByte : Byte := 0

/-- FREE VALUE (R65, 93 U3, log 5): the draw that fixes how far a failed `ReadBits(n)` moves the cursor, one per
draw counter; the channel takes it modulo `n + 1`, so any value from 0 to `n` may come. -/
opaque freeAdvance : Nat → Nat

end Sys2Proof.Config
end

