-- ==== Sys2Proof/Machine/Channel.lean ====
section
/-! DEFINITION. The two bit channels (20_memory.md R58 to R66) with the environment's answer to each coming call:
the head of `answers` says whether the next call succeeds, and past the script's end a call succeeds (log 4). -/

namespace Sys2Proof.Machine

/-- The output channel `ECH` (R58). -/
structure OutChannel where
  /-- `ECH_PRESENT` (R66). -/
  isPresent : Bool
  /-- `ECH.bits`, in transmission order. -/
  bits : List Bool
  /-- The environment's answers to the coming `WriteBits` calls (R60). -/
  answers : List Bool
deriving DecidableEq, Repr

/-- The input channel `DCH` (R62). -/
structure InChannel where
  /-- `DCH_PRESENT` (R66). -/
  isPresent : Bool
  /-- `DCH.bits`, in transmission order. -/
  bits : List Bool
  /-- `DCH.pos`, the number of bits already consumed. -/
  pos : Nat
  /-- The environment's answers to the coming `ReadBit` and `ReadBits` calls (R65). -/
  answers : List Bool
  /-- The model's own counter of the free values drawn (log 5). -/
  draws : Nat
deriving DecidableEq, Repr

/-- Bits `v[n-1], ..., v[0]`, most significant first (R53, R59). -/
def msbFirst (v : Nat) : Nat → List Bool
  | 0 => []
  | n + 1 => v.testBit n :: msbFirst v n

/-- The unsigned number whose bits are given most significant first (R53, R64). -/
def bitsValue (bs : List Bool) : Nat := bs.foldl (fun acc b => 2 * acc + b.toNat) 0

/-- `ECH.WriteBits(v, n)` (R59, R60): the flag says whether the call succeeded; a failed call appends nothing
(log 6). -/
def OutChannel.writeBits (c : OutChannel) (v n : Nat) : Bool × OutChannel :=
  if c.answers.headD true then
    (true, { c with bits := c.bits ++ msbFirst v n, answers := c.answers.tail })
  else (false, { c with answers := c.answers.tail })

/-- `DCH.ReadBit()` (R63, R65): `none` is a failed call, which leaves the cursor where it was; a call fails when no
bit remains. -/
def InChannel.readBit (c : InChannel) : Option Bool × InChannel :=
  match c.answers.headD true, c.bits[c.pos]? with
  | true, some b => (some b, { c with pos := c.pos + 1, answers := c.answers.tail })
  | _, _ => (none, { c with answers := c.answers.tail })

/-- `DCH.ReadBits(n)` (R64, R65): `none` is a failed call; it leaves the cursor at a free value from its old value to
its old value plus `n` (log 5). A call fails when fewer than `n` bits remain. -/
def InChannel.readBits (c : InChannel) (n : Nat) : Option Nat × InChannel :=
  if c.answers.headD true ∧ c.pos + n ≤ c.bits.length then
    (some (bitsValue ((c.bits.drop c.pos).take n)), { c with pos := c.pos + n, answers := c.answers.tail })
  else
    (none, { c with
      pos := c.pos + Config.freeAdvance c.draws % (n + 1), answers := c.answers.tail, draws := c.draws + 1 })

end Sys2Proof.Machine
end

