-- ==== Sys2Proof/Machine/Memory.lean ====
section
/-! DEFINITION. The transform buffer `BUF` (20_memory.md R50 to R56): a list of (index, byte) cells in one canonical
form, the indices strictly rising, no cell equal to what an unlisted index reads as. -/

namespace Sys2Proof.Machine

/-- The listed bytes of `BUF`. -/
abbrev Memory := List Host.Cell

/-- `MemRead(a, 1)` (R52). -/
def Memory.readByte : Memory → Nat → Byte
  | [], _ => Config.unlistedByte
  | (b, u) :: m, a => if a = b then u else Memory.readByte m a

/-- A cell put before a list of cells, unless its byte is what an unlisted index reads as. -/
def Memory.putCell (a : Nat) (v : Byte) (m : Memory) : Memory :=
  if v = Config.unlistedByte then m else (a, v) :: m

/-- `MemWrite(a, 1, v)` (R52). -/
def Memory.writeByte : Memory → Nat → Byte → Memory
  | [], a, v => Memory.putCell a v []
  | (b, u) :: m, a, v =>
    if a < b then Memory.putCell a v ((b, u) :: m)
    else if a = b then Memory.putCell a v m
    else (b, u) :: Memory.writeByte m a v

/-- The canonical form: rising indices, each below `2^AW` (R56), and no cell that says what an unlisted index says. -/
abbrev Memory.wf (m : Memory) : Prop :=
  m.Pairwise (fun c d => c.1 < d.1) ∧ ∀ c ∈ m, c.1 < Config.bufSize ∧ c.2 ≠ Config.unlistedByte

end Sys2Proof.Machine
end

