-- ==== Sys2Proof/Machine/Table.lean ====
section
/-! DEFINITION. The core's internal arrays (10_state.md R20): a table of `2^w` entries indexed by a `w`-bit number, so
that an index is in range by its type (20_memory.md R50). -/

namespace Sys2Proof.Machine

/-- An array of `2^w` entries. -/
abbrev Table (w : Nat) (α : Type) := Vector α (2 ^ w)

/-- `X[i]` (00_scope.md R11). -/
def Table.read {w : Nat} {α : Type} (t : Table w α) (i : BitVec w) : α := t[i.toNat]'i.isLt

/-- `X[i] <- x` (R11). -/
def Table.write {w : Nat} {α : Type} (t : Table w α) (i : BitVec w) (x : α) : Table w α :=
  t.set i.toNat x i.isLt

/-- The table written whole: `for i in 0 .. 2^w - 1: X[i] <- f i`. -/
def Table.tabulate {w : Nat} {α : Type} (f : BitVec w → α) : Table w α :=
  ⟨⟨(List.range (2 ^ w)).map fun n => f (BitVec.ofNat w n)⟩, by simp⟩

end Sys2Proof.Machine
end

