-- ==== Sys2Proof/Machine/Rank.lean ====
section
/-! DEFINITION. The rank structure of the forward engine (10_state.md R25 to R30) and its canonical state (R41). -/

namespace Sys2Proof.Machine

/-- A link: a node number, or `NIL` as `none` (00_scope.md R10, 10_state.md R29, log 11). -/
abbrev Link := Option Byte

/-- The 9-bit encoding of a link (R29): bit 8 is the nil flag, `NIL` is `0x100`. -/
def linkBits : Link → BitVec 9
  | none => 0x100
  | some v => v.setWidth 9

/-- The rank structure: 256 nodes indexed by value, 16 buckets, and the symbol at the front. -/
structure RankStructure where
  /-- `NEXT[v]`: the node after `v` in the global order (R25). -/
  next : Table 8 Link
  /-- `PREV[v]`: the node before `v` in the global order (R25). -/
  prev : Table 8 Link
  /-- `BKT[v]`: the bucket that holds `v` (R26). -/
  bkt : Table 8 (BitVec 4)
  /-- `HEAD[k]`: the first node of bucket `k` (R27). -/
  head : Table 4 Link
  /-- `LEN[k]`: the number of symbols in bucket `k` (R28). -/
  len : Table 4 (BitVec 7)
  /-- `PREV_SYM`: the value at the front of bucket 0 (R30). -/
  prevSym : Byte
deriving DecidableEq, Repr

/-- `NEXT` of the identity chain 0, 1, ..., 255 (R41, R93). -/
def chainNext : Table 8 Link := Table.tabulate fun v => if v = 255 then none else some (v + 1)

/-- `PREV` of the identity chain (R41, R93). -/
def chainPrev : Table 8 Link := Table.tabulate fun v => if v = 0 then none else some (v - 1)

/-- The canonical state, as the table of R41 gives it. -/
def RankStructure.canonical : RankStructure where
  next := chainNext
  prev := chainPrev
  bkt := Table.tabulate fun v => if v = 0 then 0 else BitVec.ofNat 4 (1 + (v.toNat - 1) / 17)
  head := Table.tabulate fun k => if k = 0 then some 0 else some (BitVec.ofNat 8 (1 + 17 * (k.toNat - 1)))
  len := Table.tabulate fun k => if k = 0 then 1 else 17
  prevSym := 0

end Sys2Proof.Machine
end

