-- ==== Sys2Proof/Machine/State.lean ====
section
/-! DEFINITION. The machine's state (10_state.md R20), its stops, and the state after reset (R41, 70_reset_and_hazards.md
R210). -/

namespace Sys2Proof.Machine

/-- A codec's configuration (10_state.md R36, R37). -/
structure CodecConfig where
  /-- `VALID`: the codec has been constructed. -/
  valid : Bool
  /-- `SIGNED`: signed mode. -/
  signed : Bool
  /-- `LOGBASE`: the Rice parameter. -/
  logBase : BitVec 3
deriving DecidableEq, Repr

/-- What the host and the platform do next (log 1, 2). -/
inductive PortEvent where
  /-- The host issues a command word (30_encoding.md R70). -/
  | command (w : Word)
  /-- The platform applies reset between two commands (70_reset_and_hazards.md R210). -/
  | reset
  /-- The host issues a command word and the platform applies reset before its response, when `progress` bytes of
  `BUF` or bits of a channel have been moved (70_reset_and_hazards.md R212, 93 U11, log 17). -/
  | commandCut (w : Word) (progress : Nat)
  /-- The host fills one byte of `BUF` (20_memory.md R51). -/
  | fillBuf (a : Data) (v : Byte)
  /-- The environment appends bits to `ECH` (20_memory.md R58, 70_reset_and_hazards.md R218). -/
  | appendEch (bs : List Bool)
  /-- The input channel's source supplies more bits (20_memory.md R62). -/
  | supplyDch (bs : List Bool)
  /-- The environment moves `DCH.pos` (70_reset_and_hazards.md R217, R218). -/
  | moveDch (pos : Nat)
  /-- The environment chooses its answers to the coming calls of the two channels, after those already chosen
  (20_memory.md R60, R65, log 4). -/
  | answerCalls (ech dch : List Bool)
deriving DecidableEq, Repr

/-- The state of the core, of its surroundings, and of its command port. -/
structure State where
  /-- The rank structure (10_state.md R25 to R30). -/
  rank : RankStructure
  /-- `IDX`, the inverse engine's order (R32). -/
  idx : Table 8 Byte
  /-- `SIZE` (R31). -/
  size : Data
  /-- `ENC.*` (R36). -/
  enc : CodecConfig
  /-- `DEC.*` (R37). -/
  dec : CodecConfig
  /-- `STATUS` (R38). -/
  status : Byte
  /-- `FAULT` (R39). -/
  faultFlag : Bool
  /-- `ARG` (R21, log 8). -/
  arg : Data
  /-- `RES` (R21, log 8). -/
  res : Data
  /-- `BUF` (20_memory.md R51). -/
  buf : Memory
  /-- `ECH` (20_memory.md R58). -/
  ech : OutChannel
  /-- `DCH` (20_memory.md R62). -/
  dch : InChannel
  /-- What the host and the platform do next, first first (log 1). -/
  port : List PortEvent
  /-- The response words returned so far, oldest first (30_encoding.md R72). -/
  responses : List Word
deriving DecidableEq, Repr

/-- The faults: NONE. Every command of this core ends in a response, an error in an error response (00_scope.md R8,
60_exceptions.md R194), so no definition of the model can answer `.fault`: the type has no member. Safe: no behaviour
of the core is left out by a stop. -/
inductive Fault where
deriving DecidableEq, Repr

/-- The refusals. -/
inductive Refusal where
  /-- An instruction that has no meaning yet, by mnemonic. Nobody raises it: every arm of `exec` calls a meaning.
  Safe. -/
  | notModelled (mnemonic : String)
deriving DecidableEq, Repr

/-- `ENC.*` and `DEC.*` after reset: not constructed (R41). -/
def CodecConfig.unset : CodecConfig where
  valid := false
  signed := false
  logBase := 0

/-- The identity order `IDX[j] = j` (R41, 41_mtf_inverse.md R121). -/
def identityIdx : Table 8 Byte := Table.tabulate id

/-- The machine right after reset (10_state.md R41). `ARG` and `RES`, which the spec leaves unspecified, are 0 (log 8);
the surroundings, which reset does not change, start empty and with both channels attached (log 9, 10). -/
def State.reset : State where
  rank := RankStructure.canonical
  idx := identityIdx
  size := 0
  enc := CodecConfig.unset
  dec := CodecConfig.unset
  status := 0
  faultFlag := false
  arg := 0
  res := 0
  buf := []
  ech := { isPresent := true, bits := [], answers := [] }
  dch := { isPresent := true, bits := [], pos := 0, answers := [], draws := 0 }
  port := []
  responses := []

end Sys2Proof.Machine
end

