-- ==== Sys2Proof/Machine/Flags.lean ====
section
/-! DEFINITION. The status codes (60_exceptions.md R185), the response word (30_encoding.md R72) and the register
images `RDCSR` reads (10_state.md R24, 44_system.md R177). The core has no condition codes (R22). -/

namespace Sys2Proof.Machine

/-- The outcomes of a command (R185). -/
inductive Code where
  | ok
  | config
  | io
  | illegal
  | range
  | internal
  | notConstructed
deriving DecidableEq, Repr

/-- The numeric status codes (R185): `E_OK` 0, `E_CONFIG` 1, `E_IO` 2, `E_ILLEGAL` 3, `E_RANGE` 4, `E_INTERNAL` 5,
`E_STATE` 6. -/
def codeBits : Code → Byte
  | .ok => 0
  | .config => 1
  | .io => 2
  | .illegal => 3
  | .range => 4
  | .internal => 5
  | .notConstructed => 6

/-- A response word `{status, data}` (R72). -/
def responseWord (c : Code) (data : Data) : Word := codeBits c ++ data

/-- `BASE`: `1 << LOGBASE` while the codec is constructed, else 0 (R24, R36). -/
def baseBits (c : CodecConfig) : Byte := if c.valid then 1 <<< c.logBase.toNat else 0

/-- `ECFG` and `DCFG` (R24, R177): `{0[5:0], BASE, VALID, SIGNED, 0[4:0], LOGBASE}`. -/
def configImage (c : CodecConfig) : Data :=
  (0 : BitVec 6) ++ baseBits c ++ BitVec.ofBool c.valid ++ BitVec.ofBool c.signed ++ (0 : BitVec 5) ++ c.logBase

/-- The register `STATUS` (R24, R177): `{0[14:0], FAULT, STATUS}`. -/
def statusImage (s : State) : Data := (0 : BitVec 15) ++ BitVec.ofBool s.faultFlag ++ s.status

/-- The register a `csr` number names (R24, R177); there is none from 4 on. -/
def csrValue (s : State) (csr : Byte) : Option Data :=
  match csr.toNat with
  | 0 => some s.size
  | 1 => some (configImage s.enc)
  | 2 => some (configImage s.dec)
  | 3 => some (statusImage s)
  | _ => none

end Sys2Proof.Machine
end

