-- ==== Sys2Proof/Machine/Operands.lean ====
section
/-! DEFINITION. The operand forms and the byte arithmetic of the commands (00_scope.md R13, 40_mtf_forward.md R116,
42_rg_encoder.md R136). -/

namespace Sys2Proof.Machine

/-- `neg8` (R13): two's-complement negation of a byte. -/
def neg8 (v : Byte) : Byte := BitVec.ofNat 8 (256 - v.toNat)

/-- `abs8` (R13): the magnitude of a byte read as two's complement, 0 to 128. -/
def abs8 (v : Byte) : Byte := if v.getLsbD 7 then neg8 v else v

/-- `trunc8` (R10). -/
def trunc8 (n : Nat) : Byte := BitVec.ofNat 8 n

/-- `zext_24` of a byte (R10). -/
def zext24 (v : Byte) : Data := v.setWidth 24

/-- The traversal length of a block command (R116): `len` when `SIZE = 0`, else `SIZE`. -/
def traversal (size len : Data) : Data := if size = 0 then len else size

/-- Whether a `logBase` operand is in 1 to 7 (R136, R156). -/
def legalLogBase (logBase : Byte) : Bool :=
  decide (Config.lmin ≤ logBase.toNat) && decide (logBase.toNat ≤ Config.lmax)

/-- The configuration a successful `CFG` command writes (R136, R156). -/
def constructed (signed : Bool) (logBase : Byte) : CodecConfig where
  valid := true
  signed := signed
  logBase := logBase.setWidth 3

end Sys2Proof.Machine
end

