-- ==== Sys2Proof/Machine/Ops.lean ====
section
/-! DEFINITION. The shared operations of the commands: how a command ends, how an error is taken (60_exceptions.md R194),
the fault lock (R199), accepting a command word, reset (70_reset_and_hazards.md R210) and what the host does between
commands. -/

namespace Sys2Proof.Machine

/-- The response that ends a command (30_encoding.md R72): `RES` holds its data (10_state.md R21, log 8). -/
def State.respond (s : State) (c : Code) (data : Data) : State :=
  { s with res := data, responses := s.responses ++ [responseWord c data] }

/-- A command's successful end: `STATUS <- E_OK`, the data in the response (R38, R72). -/
def State.complete (s : State) (data : Data) : State :=
  { s with status := codeBits .ok }.respond .ok data

/-- TAKING AN ERROR (R194), the core's only exception entry: `STATUS` takes the code, the response carries it with
data 0, nothing is saved and control goes nowhere. There is NO RETURN to model: after the response the core is ready
for the next command (R197). -/
def State.raise (s : State) (c : Code) : State :=
  { s with status := codeBits c }.respond c 0

/-- The error entry of 40_mtf_forward.md R101: `FAULT` is set as well (10_state.md R39). -/
def State.raiseInternal (s : State) : State :=
  { s with faultFlag := true }.raise .internal

/-- THE FAULT LOCK (R199): while `FAULT = 1` the command raises `E_INTERNAL` and does nothing else. -/
def State.unlessLocked (s : State) (t : State) : State := if s.faultFlag then s.raise .internal else t

/-- The illegal command word (30_encoding.md R74, R75): `E_ILLEGAL`; a word whose `op` is `0x0C` does not write
`STATUS`. -/
def State.rejectWord (s : State) (w : Word) : State :=
  if opField w = 0x0C then s.respond .illegal 0 else s.raise .illegal

/-- The core takes a command word from the port: `ARG` holds its bits 23 to 0 (10_state.md R21). -/
def State.accept (s : State) (w : Word) (rest : List PortEvent) : State :=
  { s with port := rest, arg := argField w }

/-- RESET (70_reset_and_hazards.md R210): the core's own state as 10_state.md R41 has it; `BUF`, the channels and the
port are not the core's and stay. -/
def State.applyReset (s : State) : State :=
  { s with
    rank := State.reset.rank
    idx := State.reset.idx
    size := State.reset.size
    enc := State.reset.enc
    dec := State.reset.dec
    status := State.reset.status
    faultFlag := State.reset.faultFlag
    arg := State.reset.arg
    res := State.reset.res }

/-- The host fills one byte of `BUF` between commands (20_memory.md R51). -/
def State.fillBuf (s : State) (a : Data) (v : Byte) : State := { s with buf := s.buf.writeByte a.toNat v }

/-- The environment appends to `ECH.bits` (20_memory.md R58). -/
def State.appendEch (s : State) (bs : List Bool) : State :=
  { s with ech := { s.ech with bits := s.ech.bits ++ bs } }

/-- The source of `DCH` supplies more bits (20_memory.md R62). -/
def State.supplyDch (s : State) (bs : List Bool) : State :=
  { s with dch := { s.dch with bits := s.dch.bits ++ bs } }

/-- The environment moves `DCH.pos` (70_reset_and_hazards.md R217). -/
def State.moveDch (s : State) (pos : Nat) : State := { s with dch := { s.dch with pos := pos } }

/-- The environment's answers to the coming channel calls (20_memory.md R60, R65). -/
def State.answerCalls (s : State) (ech dch : List Bool) : State :=
  { s with
    ech := { s.ech with answers := s.ech.answers ++ ech }
    dch := { s.dch with answers := s.dch.answers ++ dch } }

end Sys2Proof.Machine
end

