-- ==== Sys2Proof/Machine/Decoder.lean ====
section
/-! DEFINITION. The Rice-Golomb decoder (43_rg_decoder.md): `RGD.CFG` and `RGD.DEC`. -/

namespace Sys2Proof.Machine

/-- The unary prefix (R159): zeros are counted onto `q` until a 1 is read; `none` when a read fails. The first
argument bounds the zeros that can still be read by the bits that remain: when it is 0 no bit remains, and the read
fails (20_memory.md R65). -/
def readUnary : Nat → Nat → InChannel → Option Nat × InChannel
  | 0, _, c => (none, c.readBit.2)
  | remaining + 1, q, c =>
    match c.readBit with
    | (none, c') => (none, c')
    | (some true, c') => (some q, c')
    | (some false, c') => readUnary remaining (q + 1) c'

/-- The result of a parsed codeword (R163, R164): the magnitude's low 8 bits, negated when the sign bit is 1. -/
def signedResult (magnitude : Nat) (negative : Bool) : Byte :=
  if negative then neg8 (trunc8 magnitude) else trunc8 magnitude

/-- The sign (R162): one more bit exactly in signed mode and for a magnitude that is not 0. -/
def readSign (signed : Bool) (magnitude : Nat) (c : InChannel) : Option Bool × InChannel :=
  if signed = true ∧ magnitude ≠ 0 then c.readBit else (some false, c)

/-- One codeword parsed from the channel (R159 to R165): the byte, or `none` when a read failed. -/
def parseCodeword (signed : Bool) (logBase : Nat) (c : InChannel) : Option Byte × InChannel :=
  match readUnary (c.bits.length - c.pos) 0 c with
  | (none, c₁) => (none, c₁)
  | (some q, c₁) =>
    match c₁.readBits logBase with
    | (none, c₂) => (none, c₂)
    | (some r, c₂) =>
      match readSign signed (q * 2 ^ logBase + r) c₂ with
      | (none, c₃) => (none, c₃)
      | (some negative, c₃) => (some (signedResult (q * 2 ^ logBase + r) negative), c₃)

/-- `RGD.CFG logBase, signed` (R156, R157). -/
def execRgdCfg (signed : Bool) (logBase : Byte) (s : State) : Host.Outcome State Fault Refusal :=
  .next <| s.unlessLocked <|
    if s.dch.isPresent && legalLogBase logBase then { s with dec := constructed signed logBase }.complete 0
    else s.raise .config

/-- `RGD.DEC` (R158 to R166): one codeword read from the input channel. -/
def execRgdDec (s : State) : Host.Outcome State Fault Refusal :=
  .next <| s.unlessLocked <|
    if s.dec.valid then
      match parseCodeword s.dec.signed s.dec.logBase.toNat s.dch with
      | (some v, dch) => { s with dch := dch }.complete (zext24 v)
      | (none, dch) => { s with dch := dch }.raise .io
    else s.raise .notConstructed

end Sys2Proof.Machine
end

