-- ==== Sys2Proof/Machine/Encoder.lean ====
section
/-! DEFINITION. The Rice-Golomb encoder (42_rg_encoder.md): `RGE.CFG` and `RGE.ENC`. -/

namespace Sys2Proof.Machine

/-- The arguments `(w, n)` of the one `WriteBits` call that codes `val` (R139 to R143, R146). -/
def codeword (signed : Bool) (logBase : Nat) (val : Byte) : Nat × Nat :=
  let base := 1 <<< logBase
  if val = 0 then (base, logBase + 1)
  else
    let m := (if signed then abs8 val else val).toNat
    let q := m >>> logBase
    let w := base ||| (m &&& (base - 1))
    if signed then (w <<< 1 ||| (val.getLsbD 7).toNat, q + 1 + logBase + 1) else (w, q + 1 + logBase)

/-- The one `WriteBits` call of `RGE.ENC` (R144, R146). -/
def writeCodeword (c : CodecConfig) (val : Byte) (ech : OutChannel) : Bool × OutChannel :=
  ech.writeBits (codeword c.signed c.logBase.toNat val).1 (codeword c.signed c.logBase.toNat val).2

/-- `RGE.CFG logBase, signed` (R136, R137). -/
def execRgeCfg (signed : Bool) (logBase : Byte) (s : State) : Host.Outcome State Fault Refusal :=
  .next <| s.unlessLocked <|
    if s.ech.isPresent && legalLogBase logBase then { s with enc := constructed signed logBase }.complete 0
    else s.raise .config

/-- `RGE.ENC val` (R138 to R146): one write to the output channel. -/
def execRgeEnc (val : Byte) (s : State) : Host.Outcome State Fault Refusal :=
  .next <| s.unlessLocked <|
    if s.enc.valid then
      match writeCodeword s.enc val s.ech with
      | (true, ech) => { s with ech := ech }.complete 0
      | (false, ech) => { s with ech := ech }.raise .io
    else s.raise .notConstructed

end Sys2Proof.Machine
end

