-- ==== Sys2Proof/Machine/Forward.lean ====
section
/-! DEFINITION. The forward transform (40_mtf_forward.md): the micro-operations of the rank structure and the commands
`MTF.FBEGIN`, `MTF.FSYM`, `MTF.FWD`.

An operation that answers `none` has met a broken structure: the symbol is not where `BKT` says (R101), or a link that
must name a node is `NIL` (log 12). The step then ends in `E_INTERNAL` with the arrays as they were (R101, log 14). -/

namespace Sys2Proof.Machine

/-! ### Partitioning (R91 to R94) -/

/-- The inner loop of `CARVE` (R91): `count` nodes from `p` on go to bucket `k`; answers the node after them and the
new `BKT`. -/
def carveSegment (next : Table 8 Link) (k : BitVec 4) :
    Nat → Link → Table 8 (BitVec 4) → Option (Link × Table 8 (BitVec 4))
  | 0, p, bkt => some (p, bkt)
  | _ + 1, none, _ => none
  | count + 1, some v, bkt => carveSegment next k count (next.read v) (bkt.write v k)

/-- The outer loop of `CARVE` (R91): the listed buckets get `BLEN` nodes each, from `p` on. -/
def carveBuckets : List (BitVec 4) → Link → RankStructure → Option RankStructure
  | [], _, r => some r
  | k :: ks, p, r =>
    match carveSegment r.next k Config.blen p r.bkt with
    | none => none
    | some (p', bkt) =>
      carveBuckets ks p'
        { r with head := r.head.write k p, len := r.len.write k (BitVec.ofNat 7 Config.blen), bkt := bkt }

/-- `CARVE` (R91), and so `REBAL` (R92): the global order re-carved into the canonical partition. -/
def carve (r : RankStructure) : Option RankStructure :=
  match r.head.read 0 with
  | none => none
  | some h =>
    carveBuckets [1, 2, 3, 4, 5, 6, 7, 8, 9, 10, 11, 12, 13, 14, 15] (r.next.read h)
      { r with len := r.len.write 0 (BitVec.ofNat 7 Config.b0len), bkt := r.bkt.write h 0 }

/-- The chain relinked in index order, the first lines of `RESETBAL` (R93). -/
def relinkIdentity (r : RankStructure) : RankStructure :=
  { r with next := chainNext, prev := chainPrev, head := r.head.write 0 (some 0) }

/-- `RESETBAL` (R93): the canonical state, whatever the state was. The carving cannot fail, since the chain has just
been relinked; the alternative is never taken. -/
def resetbal (r : RankStructure) : RankStructure :=
  match carve (relinkIdentity r) with
  | some r' => { r' with prevSym := 0 }
  | none => RankStructure.canonical

/-! ### The forward step (R96 to R109) -/

/-- `LEN[0] + ... + LEN[k-1]` (10_state.md R33, R99); `k` may be 16. -/
def bucketOffset (r : RankStructure) (k : Nat) : Nat :=
  ((List.range k).map fun j => (r.len.read (BitVec.ofNat 4 j)).toNat).sum

/-- The walk of `RANKQ` (R99): from `p`, `n` nodes already passed, at most `more` nodes still to pass; the position
of `v`, or `none` when it is not met (R101). -/
def walkTo (next : Table 8 Link) (v : Byte) : Nat → Nat → Link → Option Nat
  | 0, n, p => if p = some v then some n else none
  | more + 1, n, p =>
    if p = some v then some n
    else match p with
      | none => none
      | some u => walkTo next v more (n + 1) (next.read u)

/-- `RANKQ` (R98 to R101): the rank of `v`, found through its bucket `k`. -/
def rankQuery (r : RankStructure) (v : Byte) (k : BitVec 4) : Option Nat :=
  (walkTo r.next v ((r.len.read k).toNat - 1) 0 (r.head.read k)).map (bucketOffset r k.toNat + ·)

/-- `UNLINK` (R103): the neighbours `pp` and `nn` of `v` are linked to each other. -/
def unlink (r : RankStructure) (v : Byte) : Option RankStructure :=
  match r.prev.read v with
  | none => none
  | some pp =>
    let nn := r.next.read v
    some { r with
      next := r.next.write pp nn
      prev := match nn with
        | none => r.prev
        | some q => r.prev.write q (some pp) }

/-- The head update (R104): bucket `k` starts at the node after `v` when it started at `v`. -/
def updateHead (r : RankStructure) (v : Byte) (k : BitVec 4) (nn : Link) : RankStructure :=
  if k ≠ 0 ∧ r.head.read k = some v then { r with head := r.head.write k nn } else r

/-- `RELINK0` (R105): `v` becomes the first node of the global order. -/
def relinkFront (r : RankStructure) (v : Byte) : Option RankStructure :=
  match r.head.read 0 with
  | none => none
  | some h =>
    some { r with
      next := r.next.write v (some h)
      prev := (r.prev.write v none).write h (some v)
      head := r.head.write 0 (some v) }

/-- `BOOKKEEP` (R106), for `k != 0`: one unit of length and the symbol go from bucket `k` to bucket 0. -/
def bookkeep (r : RankStructure) (v : Byte) (k : BitVec 4) : RankStructure :=
  let len := r.len.write 0 (r.len.read 0 + 1)
  { r with len := len.write k (len.read k - 1), bkt := r.bkt.write v 0 }

/-- `BOOKKEEP` and the rebalance test (R106, R107): nothing when the symbol was already in bucket 0. -/
def settleBuckets (r : RankStructure) (v : Byte) (k : BitVec 4) : Option RankStructure :=
  if k = 0 then some r
  else
    let r' := bookkeep r v k
    if Config.thresh < (r'.len.read 0).toNat ∨ r'.len.read k = 0 then carve r' else some r'

/-- The promotion of `v` out of bucket `k` (R103 to R108). -/
def promote (r : RankStructure) (v : Byte) (k : BitVec 4) : Option RankStructure :=
  match unlink r v with
  | none => none
  | some r₁ =>
    match relinkFront (updateHead r₁ v k (r.next.read v)) v with
    | none => none
    | some r₂ =>
      match settleBuckets r₂ v k with
      | none => none
      | some r₃ => some { r₃ with prevSym := v }

/-- `FSTEP(v)` (R109): the rank of `v` and the structure with `v` at the front. -/
def fstep (r : RankStructure) (v : Byte) : Option (Byte × RankStructure) :=
  if v = r.prevSym then some (0, r)
  else
    match rankQuery r v (r.bkt.read v), promote r v (r.bkt.read v) with
    | some rank, some r' => some (trunc8 rank, r')
    | _, _ => none

/-- The element loop of `MTF.FWD` (R115): `count` elements from index `i` on, ascending, one read and one write each
(20_memory.md R55). The flag says whether every step succeeded; a failing step leaves the elements before it
rewritten (60_exceptions.md R195). -/
def fwdLoop : Nat → Nat → RankStructure → Memory → Bool × RankStructure × Memory
  | 0, _, r, m => (true, r, m)
  | count + 1, i, r, m =>
    match fstep r (m.readByte i) with
    | none => (false, r, m)
    | some (rank, r') => fwdLoop count (i + 1) r' (m.writeByte i rank)

/-! ### The commands -/

/-- `MTF.FBEGIN` (R95). -/
def execMtfFbegin (s : State) : Host.Outcome State Fault Refusal :=
  .next (s.unlessLocked ({ s with rank := resetbal s.rank }.complete 0))

/-- `MTF.FSYM sym` (R110). -/
def execMtfFsym (sym : Byte) (s : State) : Host.Outcome State Fault Refusal :=
  .next <| s.unlessLocked <|
    match fstep s.rank sym with
    | none => s.raiseInternal
    | some (rank, r) => { s with rank := r }.complete (zext24 rank)

/-- `MTF.FWD len` (R115 to R117). -/
def execMtfFwd (len : Data) (s : State) : Host.Outcome State Fault Refusal :=
  .next <| s.unlessLocked <|
    if traversal s.size len > len then s.raise .range
    else
      match fwdLoop (traversal s.size len).toNat 0 (resetbal s.rank) s.buf with
      | (true, r, m) => { s with rank := r, buf := m }.complete (traversal s.size len)
      | (false, r, m) => { s with rank := r, buf := m }.raiseInternal

end Sys2Proof.Machine
end

