-- ==== Sys2Proof/Machine/Inverse.lean ====
section
/-! DEFINITION. The inverse transform (41_mtf_inverse.md): the inverse step and the commands `MTF.IBEGIN`, `MTF.ISYM`,
`MTF.INV`. They use `IDX` and nothing of the rank structure (10_state.md R42). -/

namespace Sys2Proof.Machine

/-- The shift of R122: `for j in r downto 1: IDX[j] <- IDX[j-1]`. -/
def shiftBack : Nat → Table 8 Byte → Table 8 Byte
  | 0, idx => idx
  | j + 1, idx => shiftBack j (idx.write (BitVec.ofNat 8 (j + 1)) (idx.read (BitVec.ofNat 8 j)))

/-- `ISTEP(r)` (R122): the symbol at rank `r` and the order with it at the front. -/
def istep (idx : Table 8 Byte) (r : Byte) : Byte × Table 8 Byte :=
  let value := idx.read r
  (value, if r = 0 then idx else (shiftBack r.toNat idx).write 0 value)

/-- The element loop of `MTF.INV` (R126): `count` elements from index `i` on, ascending, one read and one write each
(20_memory.md R55). -/
def invLoop : Nat → Nat → Table 8 Byte → Memory → Table 8 Byte × Memory
  | 0, _, idx, m => (idx, m)
  | count + 1, i, idx, m =>
    let step := istep idx (m.readByte i)
    invLoop count (i + 1) step.2 (m.writeByte i step.1)

/-- `MTF.IBEGIN` (R121). -/
def execMtfIbegin (s : State) : Host.Outcome State Fault Refusal :=
  .next (s.unlessLocked ({ s with idx := identityIdx }.complete 0))

/-- `MTF.ISYM rank` (R123). -/
def execMtfIsym (rank : Byte) (s : State) : Host.Outcome State Fault Refusal :=
  .next <| s.unlessLocked <|
    { s with idx := (istep s.idx rank).2 }.complete (zext24 (istep s.idx rank).1)

/-- `MTF.INV len` (R126, R128). -/
def execMtfInv (len : Data) (s : State) : Host.Outcome State Fault Refusal :=
  .next <| s.unlessLocked <|
    if traversal s.size len > len then s.raise .range
    else
      match invLoop (traversal s.size len).toNat 0 identityIdx s.buf with
      | (idx, m) => { s with idx := idx, buf := m }.complete (traversal s.size len)

end Sys2Proof.Machine
end

