-- ==== Sys2Proof/Machine/Cut.lean ====
section
/-! DEFINITION. What a command that reset cuts short leaves in the core's surroundings (70_reset_and_hazards.md R212). -/

namespace Sys2Proof.Machine

/-- The surroundings when reset cuts the command `i` (R212): the bytes of `BUF` rewritten so far stay rewritten, the
bits appended so far stay appended, the bits consumed so far stay consumed. `progress` counts them and is bounded by
what the whole command would have moved; the environment chooses it (93 U11). -/
def State.cutCommand (s : State) (i : Instr) (progress : Nat) : State :=
  if s.faultFlag then s
  else match i with
    | .mtfFwd len =>
      if traversal s.size len > len then s
      else { s with buf := (fwdLoop (min progress (traversal s.size len).toNat) 0 (resetbal s.rank) s.buf).2.2 }
    | .mtfInv len =>
      if traversal s.size len > len then s
      else { s with buf := (invLoop (min progress (traversal s.size len).toNat) 0 identityIdx s.buf).2 }
    | .rgeEnc val =>
      if s.enc.valid then
        let done := (writeCodeword s.enc val s.ech).2
        { s with ech := { done with bits := done.bits.take (s.ech.bits.length + progress) } }
      else s
    | .rgdDec =>
      if s.dec.valid then
        let done := (parseCodeword s.dec.signed s.dec.logBase.toNat s.dch).2
        { s with dch := { done with pos := min (s.dch.pos + progress) done.pos } }
      else s
    | .nop | .mtfSetsize _ | .mtfFbegin | .mtfFsym _ | .mtfIbegin | .mtfIsym _ | .rgeCfg _ _ | .rgdCfg _ _
    | .rdcsr _ => s

end Sys2Proof.Machine
end

