-- ==== Sys2Proof/Machine/System.lean ====
section
/-! DEFINITION. The system commands (44_system.md): `NOP`, `MTF.SETSIZE`, `RDCSR`. -/

namespace Sys2Proof.Machine

/-- `NOP` (R175): it succeeds while `FAULT = 1` too. -/
def execNop (s : State) : Host.Outcome State Fault Refusal := .next (s.complete 0)

/-- `MTF.SETSIZE size` (R176). -/
def execMtfSetsize (size : Data) (s : State) : Host.Outcome State Fault Refusal :=
  .next (s.unlessLocked ({ s with size := size }.complete 0))

/-- `RDCSR csr` (R177): it never writes `STATUS` and succeeds while `FAULT = 1` too. -/
def execRdcsr (csr : Byte) (s : State) : Host.Outcome State Fault Refusal :=
  .next <|
    match csrValue s csr with
    | some data => s.respond .ok data
    | none => s.respond .illegal 0

end Sys2Proof.Machine
end

