-- ==== Sys2Proof/Machine/Dispatch.lean ====
section
/-! DEFINITION. One arm per command: the meaning it calls. -/

namespace Sys2Proof.Machine

def exec (i : Instr) (s : State) : Host.Outcome State Fault Refusal :=
  match i with
  | .nop => Sys2Proof.Machine.execNop s
  | .mtfSetsize size => Sys2Proof.Machine.execMtfSetsize size s
  | .mtfFwd len => Sys2Proof.Machine.execMtfFwd len s
  | .mtfInv len => Sys2Proof.Machine.execMtfInv len s
  | .mtfFbegin => Sys2Proof.Machine.execMtfFbegin s
  | .mtfFsym sym => Sys2Proof.Machine.execMtfFsym sym s
  | .mtfIbegin => Sys2Proof.Machine.execMtfIbegin s
  | .mtfIsym rank => Sys2Proof.Machine.execMtfIsym rank s
  | .rgeCfg signed logBase => Sys2Proof.Machine.execRgeCfg signed logBase s
  | .rgeEnc val => Sys2Proof.Machine.execRgeEnc val s
  | .rgdCfg signed logBase => Sys2Proof.Machine.execRgdCfg signed logBase s
  | .rgdDec => Sys2Proof.Machine.execRgdDec s
  | .rdcsr csr => Sys2Proof.Machine.execRdcsr csr s

end Sys2Proof.Machine
end

