-- ==== Sys2Proof/Machine/Step.lean ====
section
/-! DEFINITION. One step: what the port holds first is done (00_scope.md R7, 92_eei_decisions.md D33). The core fetches
no instructions (10_state.md R23); a command word is decoded when it is accepted (20_memory.md R69). -/

namespace Sys2Proof.Machine

/-- One step of the machine: the first event of the port. With nothing in the port the core is idle and keeps all its
state (60_exceptions.md R201, log 1). -/
def step (s : State) : Host.Outcome State Fault Refusal :=
  match s.port with
  | [] => .next s
  | .command w :: rest =>
    match decode w with
    | .ok i => exec i (s.accept w rest)
    | .error _ => .next ((s.accept w rest).rejectWord w)
  | .reset :: rest => .next ({ s with port := rest }.applyReset)
  | .commandCut w progress :: rest =>
    match decode w with
    | .ok i => .next (((s.accept w rest).cutCommand i progress).applyReset)
    | .error _ => .next ((s.accept w rest).applyReset)
  | .fillBuf a v :: rest => .next ({ s with port := rest }.fillBuf a v)
  | .appendEch bs :: rest => .next ({ s with port := rest }.appendEch bs)
  | .supplyDch bs :: rest => .next ({ s with port := rest }.supplyDch bs)
  | .moveDch pos :: rest => .next ({ s with port := rest }.moveDch pos)
  | .answerCalls ech dch :: rest => .next ({ s with port := rest }.answerCalls ech dch)

/-- The state in which the host's next action is to issue the command word `w` (log 1). -/
def State.withFetchWord (s : State) (nbits w : Nat) : State :=
  { s with port := .command (BitVec.ofNat 32 (w % 2 ^ nbits)) :: s.port }

end Sys2Proof.Machine
end

