-- ==== Sys2Proof/Machine/Invariants.lean ====
section
/-! DEFINITION. The views and invariants of the state that the spec names: the global order (10_state.md R33), the
well-formedness of the rank structure (R34), the quiescent bounds (R35), `IDX` a permutation (R32), legal codec
configurations (R36, R37), and the list form of move-to-front (40_mtf_forward.md R112, 41_mtf_inverse.md R125). -/

namespace Sys2Proof.Machine

/-- The first `n` nodes of the chain from `p` on (R33). -/
def chainFrom (next : Table 8 Link) : Nat → Link → List Byte
  | 0, _ => []
  | _ + 1, none => []
  | n + 1, some v => v :: chainFrom next n (next.read v)

/-- `Order` (R33): the symbols from the front to the back. -/
def RankStructure.order (r : RankStructure) : List Byte := chainFrom r.next 256 (r.head.read 0)

/-- R34 (a): `Order` holds each of the 256 values once. -/
abbrev RankStructure.OrderIsPermutation (r : RankStructure) : Prop := r.order.length = 256 ∧ r.order.Nodup

/-- R34 (b): the chain ends in `NIL` at both ends. -/
abbrev RankStructure.ChainEnds (r : RankStructure) : Prop :=
  (∀ v, r.order[255]? = some v → r.next.read v = none) ∧ (∀ v, r.order[0]? = some v → r.prev.read v = none)

/-- R34 (c): `PREV` is the reverse of `NEXT` along the order. -/
abbrev RankStructure.BackLinks (r : RankStructure) : Prop :=
  ∀ j < 255, ∀ u w, r.order[j]? = some u → r.order[j + 1]? = some w → r.prev.read w = some u

/-- The clauses (a), (b), (c) of R34: one doubly-linked chain through all 256 nodes. -/
abbrev RankStructure.Chained (r : RankStructure) : Prop := r.OrderIsPermutation ∧ r.ChainEnds ∧ r.BackLinks

/-- R34 (d): the lengths sum to 256. -/
abbrev RankStructure.LengthsSum (r : RankStructure) : Prop := bucketOffset r 16 = 256

/-- R34 (e): the head of a bucket that is not empty stands at the bucket's offset. -/
abbrev RankStructure.HeadsAtOffsets (r : RankStructure) : Prop :=
  ∀ k : BitVec 4, r.len.read k ≠ 0 → r.head.read k = r.order[bucketOffset r k.toNat]?

/-- R34 (f): `BKT` names the bucket whose slice of the order holds the symbol. -/
abbrev RankStructure.BucketsNamed (r : RankStructure) : Prop :=
  ∀ (k : BitVec 4) (j : Nat) (v : Byte), bucketOffset r k.toNat ≤ j → j < bucketOffset r (k.toNat + 1) →
    r.order[j]? = some v → r.bkt.read v = k

/-- R34 (g): `PREV_SYM` is the front of the order. -/
abbrev RankStructure.FrontRemembered (r : RankStructure) : Prop := r.order[0]? = some r.prevSym

/-- `WF` (R34). -/
def RankStructure.WF (r : RankStructure) : Prop :=
  r.Chained ∧ r.LengthsSum ∧ r.HeadsAtOffsets ∧ r.BucketsNamed ∧ r.FrontRemembered

/-- The quiescent bounds (R35). -/
def RankStructure.Quiescent (r : RankStructure) : Prop :=
  1 ≤ (r.len.read 0).toNat ∧ (r.len.read 0).toNat ≤ Config.thresh ∧
    ∀ k : BitVec 4, k ≠ 0 → 1 ≤ (r.len.read k).toNat ∧ (r.len.read k).toNat ≤ Config.blen

/-- The sequence a table of symbols holds. -/
def tableList (idx : Table 8 Byte) : List Byte := (List.range 256).map fun j => idx.read (BitVec.ofNat 8 j)

/-- `IDX` is a permutation of 0 to 255 (R32, R124): no two ranks hold one symbol. -/
def IdxPermutation (idx : Table 8 Byte) : Prop := ∀ i j, idx.read i = idx.read j → i = j

/-- A codec configuration the `CFG` commands can leave (R36, R37): `LOGBASE` is 1 to 7 when `VALID`. -/
def CodecConfig.Legal (c : CodecConfig) : Prop := c.valid = true → 1 ≤ c.logBase.toNat

/-- The move-to-front step on a list (R112): the symbol at `j` goes to the front. -/
def moveToFront (order : List Byte) (v : Byte) : List Byte := v :: order.erase v

/-- The forward transform on lists (40_mtf_forward.md R90, R112): each symbol's position in the current order, then
the symbol moved to the front. -/
def mtfRanks : List Byte → List Byte → List Nat
  | _, [] => []
  | order, v :: vs => order.idxOf v :: mtfRanks (moveToFront order v) vs

end Sys2Proof.Machine
end

