-- ==== Sys2Proof/Safety.lean ====
section
/-! DEFINITION. What a safe state is: what the spec says holds whenever no command is executing. -/

namespace Sys2Proof.Machine

/-- The invariant of the machine: the rank structure well-formed (10_state.md R34) within the quiescent bounds (R35),
`IDX` a permutation (R32), both codec configurations legal (R36, R37), `FAULT` clear (R39), and `BUF` in its canonical
form. -/
def State.Inv (s : State) : Prop :=
  s.rank.WF ∧ s.rank.Quiescent ∧ IdxPermutation s.idx ∧ s.enc.Legal ∧ s.dec.Legal ∧ s.faultFlag = false ∧ s.buf.wf

end Sys2Proof.Machine
end

