-- ==== Sys2Proof/Certificates/Slice0/Obligations.lean ====
section
/-! DEFINITION. The statements for the provers, and the words they are made of: how a command ends, the table of
10_state.md R41, the rows of 30_encoding.md R73, the codeword of R78 to R80 and the two transforms on lists. -/

namespace Sys2Proof.Claims

open Sys2Proof.Machine

/-- The end of a command (R21, R72, R194): `STATUS` and the response carry the status, `RES` and the response the data.
`responses` is the model's record of the responses (log 10). -/
def ended (s : State) (status : Byte) (data : Data) : State :=
  { s with status := status, res := data, responses := s.responses ++ [status ++ data] }

/-- The end of an `RDCSR` (R177): the response only. -/
def answered (s : State) (status : Byte) (data : Data) : State :=
  { s with res := data, responses := s.responses ++ [status ++ data] }

/-- The rank structure at the values of the table of R41. -/
structure CanonicalTable (r : RankStructure) : Prop where
  next_inner : ∀ v : Byte, v.toNat < 255 → r.next.read v = some (v + 1)
  next_last : r.next.read 255 = none
  prev_inner : ∀ v : Byte, 1 ≤ v.toNat → r.prev.read v = some (v - 1)
  prev_first : r.prev.read 0 = none
  head_zero : r.head.read 0 = some 0
  head_rest : ∀ k : BitVec 4, 1 ≤ k.toNat → r.head.read k = some (BitVec.ofNat 8 (1 + 17 * (k.toNat - 1)))
  len_zero : r.len.read 0 = 1
  len_rest : ∀ k : BitVec 4, 1 ≤ k.toNat → r.len.read k = 17
  bkt_zero : r.bkt.read 0 = 0
  bkt_rest : ∀ v : Byte, 1 ≤ v.toNat → (r.bkt.read v).toNat = 1 + (v.toNat - 1) / 17
  prevSym_zero : r.prevSym = 0

/-- The core's own state at the values of the table of R41. -/
structure ResetTable (s : State) : Prop where
  rank : CanonicalTable s.rank
  idx : ∀ j : Byte, s.idx.read j = j
  size : s.size = 0
  enc : s.enc.valid = false ∧ s.enc.signed = false ∧ s.enc.logBase = 0
  dec : s.dec.valid = false ∧ s.dec.signed = false ∧ s.dec.logBase = 0
  status : s.status = 0
  fault : s.faultFlag = false

/-- Every byte of `BUF` reads in `t` as in `s`. -/
def SameBytes (s t : State) : Prop := ∀ a, t.buf.readByte a = s.buf.readByte a

/-- The rows of R73: `match` and `mask`. -/
def tableRows : List (Word × Word) :=
  [(0x00000000, 0xFFFFFFFF), (0x01000000, 0xFF000000), (0x02000000, 0xFF000000), (0x03000000, 0xFF000000),
   (0x04000000, 0xFFFFFFFF), (0x05000000, 0xFFFFFF00), (0x06000000, 0xFFFFFFFF), (0x07000000, 0xFFFFFF00),
   (0x08000000, 0xFFFFFE00), (0x09000000, 0xFFFFFF00), (0x0A000000, 0xFFFFFE00), (0x0B000000, 0xFFFFFFFF),
   (0x0C000000, 0xFFFFFF00)]

/-- The row of R73 selects the word: `w & mask = match`. -/
def Selects (row : Word × Word) (w : Word) : Prop := w &&& row.2 = row.1

/-- `op` of a word (R70). -/
abbrev opOf (w : Word) : Nat := w.toNat / 2 ^ 24

/-- `arg` of a word (R70). -/
abbrev argOf (w : Word) : Nat := w.toNat % 2 ^ 24

/-- R74, R75: the words that are illegal, by opcode, must-be-zero field and register number. -/
def IllegalWord (w : Word) : Prop :=
  0x0D ≤ opOf w ∨
    (opOf w ∈ [0x00, 0x04, 0x06, 0x0B] ∧ argOf w ≠ 0) ∨
    (opOf w ∈ [0x05, 0x07, 0x09, 0x0C] ∧ 2 ^ 8 ≤ argOf w) ∨
    (opOf w ∈ [0x08, 0x0A] ∧ 2 ^ 9 ≤ argOf w) ∨
    (opOf w = 0x0C ∧ 4 ≤ argOf w)

/-- The first `n` bytes of `BUF`, in ascending order. -/
def bufPrefix (s : State) (n : Nat) : List Byte := (List.range n).map s.buf.readByte

/-- The identity order 0, 1, ..., 255. -/
def identityOrder : List Byte := (List.range 256).map (BitVec.ofNat 8)

/-- The order after a forward transform of the listed symbols (R112). -/
def orderAfter : List Byte → List Byte → List Byte
  | order, [] => order
  | order, v :: vs => orderAfter (moveToFront order v) vs

/-- The inverse transform on lists (R120, R122): each rank's symbol, then that symbol moved to the front. -/
def mtfSymbols : List Byte → List Byte → List Byte
  | _, [] => []
  | order, r :: rs =>
    order.getD r.toNat 0 :: mtfSymbols (moveToFront order (order.getD r.toNat 0)) rs

/-- The order after an inverse transform of the listed ranks (R122). -/
def orderAfterRanks : List Byte → List Byte → List Byte
  | order, [] => order
  | order, r :: rs => orderAfterRanks (moveToFront order (order.getD r.toNat 0)) rs

/-- The magnitude of a byte (R140): its value, or in signed mode its distance from zero in two's complement. -/
def magnitude (signed : Bool) (val : Byte) : Nat :=
  if signed ∧ 128 ≤ val.toNat then 256 - val.toNat else val.toNat

/-- The sign part of a codeword (R80): signed mode and a non-zero byte only, 1 for a negative byte. -/
def signPart (signed : Bool) (val : Byte) : List Bool :=
  if signed = true ∧ val ≠ 0 then [decide (128 ≤ val.toNat)] else []

/-- The bits of a codeword in transmission order (R78, R79, R80): the unary prefix, the terminator, the remainder's
`logBase` bits most significant first, the sign. -/
def codewordBits (signed : Bool) (logBase : Nat) (val : Byte) : List Bool :=
  let m := magnitude signed val
  List.replicate (m / 2 ^ logBase) false ++ [true] ++
    (List.range logBase).map (fun j => (m % 2 ^ logBase).testBit (logBase - 1 - j)) ++ signPart signed val

/-- The environment lets the next `n` calls of the input channel succeed as far as bits remain (R65). -/
def CallsSucceed (c : InChannel) (n : Nat) : Prop := ∀ b ∈ c.answers.take n, b = true

/-- From `s`, one `RGE.ENC` per listed byte, in order, each succeeding, leads to `t` (R86). -/
def Encodes : State → List Byte → State → Prop
  | s, [], t => t = s
  | s, v :: vs, t => ∃ x, exec (.rgeEnc v) s = .next x ∧ x.status = 0 ∧ Encodes x vs t

/-- From `s`, one `RGD.DEC` per listed byte, each succeeding with that byte as its data, leads to `t` (R86). -/
def Decodes : State → List Byte → State → Prop
  | s, [], t => t = s
  | s, v :: vs, t => ∃ x, exec .rgdDec s = .next x ∧ x.status = 0 ∧ x.res = v.setWidth 24 ∧ Decodes x vs t

/-- The commands that use the rank structure (R42). -/
def isForward : Instr → Bool
  | .mtfFbegin | .mtfFsym _ | .mtfFwd _ => true
  | _ => false

/-- The commands that use `IDX` (R42). -/
def isInverse : Instr → Bool
  | .mtfIbegin | .mtfIsym _ | .mtfInv _ => true
  | _ => false

/-- The block commands (R43). -/
def isBlock : Instr → Bool
  | .mtfFwd _ | .mtfInv _ => true
  | _ => false

/-- The commands that run while `FAULT = 1` (R199). -/
def ignoresFault : Instr → Bool
  | .nop | .rdcsr _ => true
  | _ => false

end Sys2Proof.Claims

open Sys2Proof Sys2Proof.Machine Sys2Proof.Claims

/-! ### Encoding -/

/-- R70, R71, R73: no bit of an encoding is dropped. -/
def Obligations.DecodeOfEncode : Prop :=
  ∀ i : Instr, i.wellFormed = true → decode (encode i) = .ok i

/-- R73, R76: a legal word has one meaning, and it is the word of that meaning. -/
def Obligations.EncodeOfDecode : Prop :=
  ∀ (w : Word) (i : Instr), decode w = .ok i → i.wellFormed = true ∧ encode i = w

/-- R73, R76: a word selects a command exactly when it matches a row, and it matches at most one. -/
def Obligations.RowSelection : Prop :=
  (∀ (w : Word) (i : Instr), decode w = .ok i → w &&& i.mask = i.matchBits ∧ (i.matchBits, i.mask) ∈ tableRows) ∧
  (∀ (w : Word), (∃ i, decode w = .ok i) ∨ decode w = .error .csrOutOfRange ↔ ∃ row ∈ tableRows, Selects row w) ∧
  (∀ (w : Word), ∀ row ∈ tableRows, ∀ row' ∈ tableRows, Selects row w → Selects row' w → row = row')

/-- R73, R83 and the words of 95_test_vectors.md. -/
def Obligations.SpecWordsDecode : Prop :=
  decode 0x00000000 = .ok .nop ∧ decode 0x01FFFFFF = .ok (.mtfSetsize 16777215) ∧
  decode 0x02000004 = .ok (.mtfFwd 4) ∧ decode 0x050000FF = .ok (.mtfFsym 255) ∧
  decode 0x07000041 = .ok (.mtfIsym 65) ∧ decode 0x08000103 = .ok (.rgeCfg true 3) ∧
  decode 0x080000FF = .ok (.rgeCfg false 255) ∧ decode 0x0B000000 = .ok .rgdDec ∧
  decode 0x0C000003 = .ok (.rdcsr 3) ∧ decode 0x0C000004 = .error .csrOutOfRange ∧
  decode 0x06800000 = .error .nonzeroField ∧ decode 0x0D000000 = .error .reservedOpcode

/-- R74, R75: which words are illegal, and that such a word, whatever the state, answers `E_ILLEGAL` and changes
nothing but `STATUS`, and not even that for `op = 0x0C`; an out-of-range `logBase` decodes and is refused with
`E_CONFIG`. -/
def Obligations.IllegalWordsAnswerIllegal : Prop :=
  (∀ (s : State) (w : Word), IllegalWord w → (∃ e, decode w = .error e) ∧
    s.rejectWord w = if opOf w = 0x0C then answered s 3 0 else ended s 3 0) ∧
  (∀ (signed : Bool) (logBase : Byte), ¬IllegalWord (encode (.rgeCfg signed logBase)) ∧
    ¬IllegalWord (encode (.rgdCfg signed logBase))) ∧
  (∀ (s : State) (signed : Bool) (logBase : Byte), s.faultFlag = false → logBase.toNat = 0 ∨ 8 ≤ logBase.toNat →
    exec (.rgeCfg signed logBase) s = .next (ended s 1 0) ∧ exec (.rgdCfg signed logBase) s = .next (ended s 1 0)) ∧
  (∀ w : Word, ¬IllegalWord w → ∃ i, decode w = .ok i)

/-- R7, R69: an accepted command word is decoded, and the step is the meaning of the command, or the rejection of the
illegal word, `ARG` holding the word's operand (R21) and the rest of the port waiting. The port is the model's form of the
host's command stream (log 1). -/
def Obligations.StepRunsTheDecodedCommand : Prop :=
  ∀ (s : State) (w : Word) (rest : List PortEvent), s.port = .command w :: rest →
    (∀ i, decode w = .ok i → step s = exec i { s with port := rest, arg := w.extractLsb' 0 24 }) ∧
    (∀ e, decode w = .error e →
      step s = .next (({ s with port := rest, arg := w.extractLsb' 0 24 } : State).rejectWord w))

/-! ### Reset -/

/-- R41: the values the spec gives. -/
def Obligations.ResetStateHasTheTableValues : Prop := ResetTable State.reset

/-- R41: reset from any state gives the table's values and leaves `BUF` and the channels alone; the rank structure is
that of `RESETBAL` and is well-formed. -/
def Obligations.ResetRestoresTheCore : Prop :=
  ∀ s : State, ResetTable s.applyReset ∧ s.applyReset.rank = resetbal s.rank ∧ s.applyReset.rank.WF ∧
    SameBytes s s.applyReset ∧ s.applyReset.ech = s.ech ∧ s.applyReset.dch = s.dch

/-- R212: reset inside a command takes the core to the table's values; no response is returned; `ECH` keeps what it
held and gains at most a first part of what the whole command would have appended; the cursor of `DCH` does not go back
and goes no further than the whole command would have moved it; the first `progress` bytes of `BUF` are what the whole
command would have made them, and every other byte is as before. -/
def Obligations.ResetInsideACommand : Prop :=
  ∀ (s : State) (w : Word) (progress : Nat) (rest : List PortEvent), s.port = .commandCut w progress :: rest →
    s.buf.wf →
    ∃ t, step s = .next t ∧ ResetTable t ∧ t.responses = s.responses ∧ t.port = rest ∧
      s.ech.bits <+: t.ech.bits ∧ s.dch.pos ≤ t.dch.pos ∧ t.dch.bits = s.dch.bits ∧
      (∀ a, progress ≤ a → t.buf.readByte a = s.buf.readByte a) ∧
      (∀ i u, decode w = .ok i → exec i s = .next u →
        (∀ a < progress, t.buf.readByte a = u.buf.readByte a) ∧ t.ech.bits <+: u.ech.bits ∧ t.dch.pos ≤ u.dch.pos) ∧
      ((∀ i, decode w = .ok i → isBlock i = false) → SameBytes s t)

/-! ### The forward transform -/

/-- R93: `RESETBAL` needs no precondition. -/
def Obligations.ResetbalGivesTheCanonicalState : Prop :=
  ∀ r : RankStructure, CanonicalTable (resetbal r) ∧ (resetbal r).order = identityOrder

/-- R91: on one chain through all nodes `CARVE` changes neither the order nor a link, and leaves the canonical
partition. -/
def Obligations.CarveRestoresThePartition : Prop :=
  ∀ r : RankStructure, r.Chained →
    ∃ r', carve r = some r' ∧ r'.next = r.next ∧ r'.prev = r.prev ∧ r'.head.read 0 = r.head.read 0 ∧
      r'.prevSym = r.prevSym ∧ r'.order = r.order ∧
      r'.len.read 0 = 1 ∧ (∀ k : BitVec 4, k ≠ 0 → r'.len.read k = 17) ∧
      (∀ k : BitVec 4, k ≠ 0 → r'.head.read k = r.order[1 + 17 * (k.toNat - 1)]?) ∧
      (∀ v, r.order[0]? = some v → r'.bkt.read v = 0) ∧
      (∀ j v, 1 ≤ j → r.order[j]? = some v → (r'.bkt.read v).toNat = 1 + (j - 1) / 17) ∧
      r'.LengthsSum ∧ r'.HeadsAtOffsets ∧ r'.BucketsNamed

/-- R95. -/
def Obligations.FbeginEstablishesTheCanonicalState : Prop :=
  ∀ s : State, s.faultFlag = false →
    ∃ r, CanonicalTable r ∧ exec .mtfFbegin s = .next (ended { s with rank := r } 0 0)

/-- R97, R110 (a): the symbol at the front has rank 0, and no state changes. -/
def Obligations.FsymFastPath : Prop :=
  ∀ s : State, s.faultFlag = false → exec (.mtfFsym s.rank.prevSym) s = .next (ended s 0 0)

/-- R100, R110, R112: with the rank structure well-formed, the forward step answers the symbol's position in the
global order and moves the symbol to its front; the structure is again well-formed within the quiescent bounds. -/
def Obligations.FsymReturnsTheRankAndPromotes : Prop :=
  ∀ (s : State) (v : Byte), s.faultFlag = false → s.rank.WF → s.rank.Quiescent →
    ∃ r, exec (.mtfFsym v) s = .next (ended { s with rank := r } 0 (BitVec.ofNat 24 (s.rank.order.idxOf v))) ∧
      s.rank.order.idxOf v < 256 ∧ r.order = moveToFront s.rank.order v ∧ r.prevSym = v ∧
      r.WF ∧ r.Quiescent

/-- R91, R104, R106, R107, R110 (b) to (f): the bucket lengths, heads and names after a step that is not on the fast path;
after a rebalance they are canonical relative to the new order. -/
def Obligations.FsymSettlesTheBuckets : Prop :=
  ∀ (s : State) (v : Byte) (k : BitVec 4), s.faultFlag = false → s.rank.WF → s.rank.Quiescent →
    v ≠ s.rank.prevSym → s.rank.bkt.read v = k →
    ∃ t, exec (.mtfFsym v) s = .next t ∧ t.status = 0 ∧
      t.rank.head.read 0 = some v ∧
      (k = 0 → t.rank.len = s.rank.len ∧ t.rank.bkt = s.rank.bkt ∧
        ∀ j : BitVec 4, j ≠ 0 → t.rank.head.read j = s.rank.head.read j) ∧
      (k ≠ 0 → (s.rank.len.read 0).toNat = 64 ∨ s.rank.len.read k = 1 →
        t.rank.len.read 0 = 1 ∧ (∀ j : BitVec 4, j ≠ 0 → t.rank.len.read j = 17 ∧
          t.rank.head.read j = (moveToFront s.rank.order v)[1 + 17 * (j.toNat - 1)]?) ∧
        t.rank.bkt.read v = 0 ∧
        ∀ n u, 1 ≤ n → (moveToFront s.rank.order v)[n]? = some u → (t.rank.bkt.read u).toNat = 1 + (n - 1) / 17) ∧
      (k ≠ 0 → (s.rank.len.read 0).toNat < 64 → s.rank.len.read k ≠ 1 →
        (t.rank.len.read 0).toNat = (s.rank.len.read 0).toNat + 1 ∧
        (t.rank.len.read k).toNat + 1 = (s.rank.len.read k).toNat ∧
        (∀ j : BitVec 4, j ≠ 0 → j ≠ k → t.rank.len.read j = s.rank.len.read j ∧
          t.rank.head.read j = s.rank.head.read j) ∧
        t.rank.head.read k =
          (if s.rank.head.read k = some v then s.rank.next.read v else s.rank.head.read k) ∧
        t.rank.bkt.read v = 0 ∧ ∀ u, u ≠ v → t.rank.bkt.read u = s.rank.bkt.read u)

/-- R101, R190: the symbol is not among the nodes of the bucket that `BKT` names: `E_INTERNAL`, `FAULT` set, the
arrays as they are. -/
def Obligations.FsymSymbolNotFound : Prop :=
  ∀ (s : State) (v : Byte), s.faultFlag = false → v ≠ s.rank.prevSym → s.rank.len.read (s.rank.bkt.read v) ≠ 0 →
    v ∉ chainFrom s.rank.next (s.rank.len.read (s.rank.bkt.read v)).toNat (s.rank.head.read (s.rank.bkt.read v)) →
    exec (.mtfFsym v) s = .next (ended { s with faultFlag := true } 5 0)

/-- R118: after a forward step of `v` that succeeded, a further step of `v` answers 0 and changes no state. -/
def Obligations.FsymRepeatedSymbol : Prop :=
  ∀ (s t : State) (v : Byte), exec (.mtfFsym v) s = .next t → t.status = 0 →
    exec (.mtfFsym v) t = .next (ended t 0 0)

/-- R90, R115, R116, R117: the first `end` bytes become their ranks against the identity order, the others stay, and
the rank structure is left as the last step made it. -/
def Obligations.FwdReplacesSymbolsByRanks : Prop :=
  ∀ (s : State) (len stop : Data), s.faultFlag = false → s.buf.wf →
    (s.size = 0 ∧ stop = len ∨ s.size ≠ 0 ∧ stop = s.size ∧ s.size.toNat ≤ len.toNat) →
    ∃ r m, exec (.mtfFwd len) s = .next (ended { s with rank := r, buf := m } 0 stop) ∧
      (∀ i < stop.toNat, (m.readByte i).toNat = (mtfRanks identityOrder (bufPrefix s stop.toNat)).getD i 0) ∧
      (∀ a, stop.toNat ≤ a → m.readByte a = s.buf.readByte a) ∧
      r.order = orderAfter identityOrder (bufPrefix s stop.toNat) ∧ r.WF ∧ r.Quiescent ∧ m.wf

/-- R117 (a), R128 (a), R189. -/
def Obligations.BlockCommandsRefuseALongSize : Prop :=
  ∀ (s : State) (len : Data), s.faultFlag = false → s.size ≠ 0 → len.toNat < s.size.toNat →
    exec (.mtfFwd len) s = .next (ended s 4 0) ∧ exec (.mtfInv len) s = .next (ended s 4 0)

/-! ### The inverse transform -/

/-- R121. -/
def Obligations.IbeginWritesTheIdentity : Prop :=
  ∀ s : State, s.faultFlag = false →
    ∃ idx, (∀ j, idx.read j = j) ∧ exec .mtfIbegin s = .next (ended { s with idx := idx } 0 0)

/-- R122, R123: the symbol at the rank, and the half-open shift. -/
def Obligations.IsymRotatesTheSlice : Prop :=
  ∀ (s : State) (r : Byte), s.faultFlag = false →
    ∃ idx, exec (.mtfIsym r) s = .next (ended { s with idx := idx } 0 ((s.idx.read r).setWidth 24)) ∧
      idx.read 0 = s.idx.read r ∧
      (∀ j, 0 < j.toNat → j.toNat ≤ r.toNat → idx.read j = s.idx.read (j - 1)) ∧
      (∀ j, r.toNat < j.toNat → idx.read j = s.idx.read j)

/-- R32, R124: every command keeps `IDX` a permutation of 0 to 255, and reset makes it one. -/
def Obligations.IdxStaysAPermutation : Prop :=
  IdxPermutation State.reset.idx ∧
  ∀ (i : Instr) (s t : State), exec i s = .next t → IdxPermutation s.idx → IdxPermutation t.idx

/-- R125: where `IDX` is the forward engine's order, an inverse step of the rank a forward step answers gives back
the symbol, and `IDX` is again the forward engine's order. -/
def Obligations.InverseStepUndoesTheForwardStep : Prop :=
  ∀ (s t : State) (v k : Byte), s.rank.WF → s.rank.Quiescent → s.faultFlag = false → tableList s.idx = s.rank.order →
    exec (.mtfFsym v) s = .next t → t.res = k.setWidth 24 →
    ∃ u, exec (.mtfIsym k) t = .next u ∧ u.res = v.setWidth 24 ∧ tableList u.idx = u.rank.order

/-- R120, R126, R128: the first `end` bytes become the symbols their ranks name, starting from the identity order; the
others stay. -/
def Obligations.InvReplacesRanksBySymbols : Prop :=
  ∀ (s : State) (len stop : Data), s.faultFlag = false → s.buf.wf →
    (s.size = 0 ∧ stop = len ∨ s.size ≠ 0 ∧ stop = s.size ∧ s.size.toNat ≤ len.toNat) →
    ∃ idx m, exec (.mtfInv len) s = .next (ended { s with idx := idx, buf := m } 0 stop) ∧
      (∀ i < stop.toNat, m.readByte i = (mtfSymbols identityOrder (bufPrefix s stop.toNat)).getD i 0) ∧
      (∀ a, stop.toNat ≤ a → m.readByte a = s.buf.readByte a) ∧
      tableList idx = orderAfterRanks identityOrder (bufPrefix s stop.toNat) ∧ m.wf

/-- R127. -/
def Obligations.BlockRoundTrip : Prop :=
  ∀ (s : State) (len : Data), s.faultFlag = false → s.buf.wf → (s.size = 0 ∨ s.size.toNat ≤ len.toNat) →
    ∃ t u, exec (.mtfFwd len) s = .next t ∧ exec (.mtfInv len) t = .next u ∧ t.status = 0 ∧ u.status = 0 ∧
      SameBytes s u

/-! ### The codec -/

/-- R136, R156: with the channel attached and a legal `logBase`, the configuration is written and nothing else; an
absent channel or a `logBase` outside 1 to 7 is `E_CONFIG`, and nothing but `STATUS` is written (R137, R157, R186);
while `FAULT = 1` both commands raise `E_INTERNAL`. -/
def Obligations.CfgConstructsOrRefuses : Prop :=
  ∀ (s : State) (signed : Bool) (logBase : Byte),
    (s.faultFlag = true → exec (.rgeCfg signed logBase) s = .next (ended s 5 0) ∧
      exec (.rgdCfg signed logBase) s = .next (ended s 5 0)) ∧
    (s.faultFlag = false → 1 ≤ logBase.toNat → logBase.toNat ≤ 7 →
      ∃ c : CodecConfig, c.valid = true ∧ c.signed = signed ∧ c.logBase.toNat = logBase.toNat ∧
        (s.ech.isPresent = true → exec (.rgeCfg signed logBase) s = .next (ended { s with enc := c } 0 0)) ∧
        (s.dch.isPresent = true → exec (.rgdCfg signed logBase) s = .next (ended { s with dec := c } 0 0))) ∧
    (s.faultFlag = false →
      (s.ech.isPresent = false ∨ logBase.toNat = 0 ∨ 8 ≤ logBase.toNat →
        exec (.rgeCfg signed logBase) s = .next (ended s 1 0)) ∧
      (s.dch.isPresent = false ∨ logBase.toNat = 0 ∨ 8 ≤ logBase.toNat →
        exec (.rgdCfg signed logBase) s = .next (ended s 1 0)))

/-- R138, R158: a codec that has not been constructed raises `E_STATE` and makes no channel call. -/
def Obligations.CodecNeedsConstruction : Prop :=
  ∀ (s : State) (val : Byte), s.faultFlag = false →
    (s.enc.valid = false → exec (.rgeEnc val) s = .next (ended s 6 0)) ∧
    (s.dec.valid = false → exec .rgdDec s = .next (ended s 6 0))

/-- R78, R79, R80, R144, R146: a write that succeeds appends the codeword and nothing else. -/
def Obligations.EncAppendsTheCodeword : Prop :=
  ∀ (s : State) (val : Byte), s.faultFlag = false → s.enc.valid = true → s.ech.answers.head? ≠ some false →
    exec (.rgeEnc val) s = .next
      (ended { s with ech := { s.ech with
        bits := s.ech.bits ++ codewordBits s.enc.signed s.enc.logBase.toNat val, answers := s.ech.answers.tail } } 0 0)

/-- R60, R145, R195: a write that fails appends nothing, and no core state but `STATUS` changes. -/
def Obligations.EncWriteFailureIsPrecise : Prop :=
  ∀ (s : State) (val : Byte), s.faultFlag = false → s.enc.valid = true → s.ech.answers.head? = some false →
    exec (.rgeEnc val) s = .next (ended { s with ech := { s.ech with answers := s.ech.answers.tail } } 2 0)

/-- R79: the codeword of 0 is the terminator and `logBase` zeros, in both modes. -/
def Obligations.ZeroCodeword : Prop :=
  ∀ (signed : Bool) (logBase : Nat),
    msbFirst (codeword signed logBase 0).1 (codeword signed logBase 0).2 = true :: List.replicate logBase false

/-- R147: the ranges of the quotient and of the arguments of the one `WriteBits` call, and its bits in order. -/
def Obligations.CodewordRanges : Prop :=
  ∀ (signed : Bool) (logBase : Nat) (val : Byte), 1 ≤ logBase → logBase ≤ 7 →
    magnitude signed val / 2 ^ logBase ≤ 127 ∧ (signed = true → magnitude signed val / 2 ^ logBase ≤ 64) ∧
    2 ≤ (codeword signed logBase val).2 ∧ (codeword signed logBase val).2 ≤ 129 ∧
    (codeword signed logBase val).1 < 512 ∧
    (signed = false → (codeword signed logBase val).1 < 2 ^ (logBase + 1)) ∧
    (signed = true → (codeword signed logBase val).1 < 2 ^ (logBase + 2)) ∧
    msbFirst (codeword signed logBase val).1 (codeword signed logBase val).2 = codewordBits signed logBase val

/-- R148 (h), (i): no codeword of a configuration is a prefix of another one's, so two bytes never share one; the codeword
is the bits of the one `WriteBits` call that `RGE.ENC` makes. -/
def Obligations.CodewordsArePrefixFree : Prop :=
  ∀ (signed : Bool) (logBase : Nat) (v w : Byte), 1 ≤ logBase → logBase ≤ 7 →
    msbFirst (codeword signed logBase v).1 (codeword signed logBase v).2 <+:
      msbFirst (codeword signed logBase w).1 (codeword signed logBase w).2 → v = w

/-- R159 to R164, R166: a codeword in the channel, whether or not the encoder makes it, is parsed to the low 8 bits
of its magnitude, negated when a sign bit 1 follows; the sign bit is read exactly in signed mode and for a magnitude
that is not 0. -/
def Obligations.DecParsesACodeword : Prop :=
  ∀ (s : State) (q : Nat) (rem rest : List Bool), s.faultFlag = false → s.dec.valid = true →
    rem.length = s.dec.logBase.toNat →
    (s.dch.bits.drop s.dch.pos = List.replicate q false ++ [true] ++ rem ++ rest →
      s.dec.signed = false ∨ q = 0 ∧ (∀ b ∈ rem, b = false) → CallsSucceed s.dch (q + 2) →
      exec .rgdDec s = .next
        (ended { s with dch := { s.dch with
          pos := s.dch.pos + q + 1 + s.dec.logBase.toNat, answers := s.dch.answers.drop (q + 2) } } 0
          (BitVec.ofNat 24 ((q * 2 ^ s.dec.logBase.toNat + bitsValue rem) % 256)))) ∧
    (∀ negative : Bool, s.dch.bits.drop s.dch.pos = List.replicate q false ++ [true] ++ rem ++ [negative] ++ rest →
      s.dec.signed = true → (q ≠ 0 ∨ ∃ b ∈ rem, b = true) → CallsSucceed s.dch (q + 3) →
      exec .rgdDec s = .next
        (ended { s with dch := { s.dch with
          pos := s.dch.pos + q + 2 + s.dec.logBase.toNat, answers := s.dch.answers.drop (q + 3) } } 0
          (BitVec.ofNat 24 (if negative
            then (256 - (q * 2 ^ s.dec.logBase.toNat + bitsValue rem) % 256) % 256
            else (q * 2 ^ s.dec.logBase.toNat + bitsValue rem) % 256))))

/-- R65, R165, R195: a decode in which a call fails, because the environment fails it or because the channel ends, answers
`E_IO`; the bits consumed by the reads that succeeded stay consumed; a failing `ReadBit`, in the prefix or for the sign,
moves nothing; a failing `ReadBits` moves the cursor by at most `logBase`; nothing of the core but `STATUS` changes. The
list of the environment's answers is the model's form of its choices (log 4), the cursor after a failing `ReadBits` a free
value (log 5). -/
def Obligations.DecFailureKeepsWhatWasConsumed : Prop :=
  ∀ (s : State), s.faultFlag = false → s.dec.valid = true →
    (∀ q rest, s.dch.bits.drop s.dch.pos = List.replicate q false ++ rest → CallsSucceed s.dch q →
      s.dch.answers[q]? = some false ∨ rest = [] →
      exec .rgdDec s = .next
        (ended { s with dch := { s.dch with pos := s.dch.pos + q, answers := s.dch.answers.drop (q + 1) } } 2 0)) ∧
    (∀ q rest, s.dch.bits.drop s.dch.pos = List.replicate q false ++ [true] ++ rest → CallsSucceed s.dch (q + 1) →
      s.dch.answers[q + 1]? = some false ∨ rest.length < s.dec.logBase.toNat →
      ∃ c, exec .rgdDec s = .next (ended { s with dch := c } 2 0) ∧ c.bits = s.dch.bits ∧
        c.isPresent = s.dch.isPresent ∧ c.answers = s.dch.answers.drop (q + 2) ∧
        s.dch.pos + q + 1 ≤ c.pos ∧ c.pos ≤ s.dch.pos + q + 1 + s.dec.logBase.toNat) ∧
    (∀ q rem rest, s.dch.bits.drop s.dch.pos = List.replicate q false ++ [true] ++ rem ++ rest →
      rem.length = s.dec.logBase.toNat → s.dec.signed = true → (q ≠ 0 ∨ ∃ b ∈ rem, b = true) →
      CallsSucceed s.dch (q + 2) → s.dch.answers[q + 2]? = some false ∨ rest = [] →
      exec .rgdDec s = .next
        (ended { s with dch := { s.dch with
          pos := s.dch.pos + q + 1 + s.dec.logBase.toNat, answers := s.dch.answers.drop (q + 3) } } 2 0)) ∧
    (∀ q, s.dch.bits.drop s.dch.pos = List.replicate q false →
      ∃ c, exec .rgdDec s = .next (ended { s with dch := c } 2 0) ∧ c.bits = s.dch.bits ∧
        s.dch.pos ≤ c.pos ∧ c.pos ≤ s.dch.pos + q)

/-- R167: what the encoder appends for a sequence of bytes, read back under the same configuration, decodes to those
bytes and is consumed whole. -/
def Obligations.CodecRoundTrip : Prop :=
  ∀ (s u : State) (vs : List Byte) (rest : List Bool), s.faultFlag = false → u.faultFlag = false →
    s.enc.valid = true → 1 ≤ s.enc.logBase.toNat → u.dec = s.enc →
    (∀ b ∈ s.ech.answers, b = true) → (∀ b ∈ u.dch.answers, b = true) →
    ∃ t cw, Encodes s vs t ∧ t.ech.bits = s.ech.bits ++ cw ∧
      (u.dch.bits.drop u.dch.pos = cw ++ rest → ∃ x, Decodes u vs x ∧ x.dch.pos = u.dch.pos + cw.length)

/-! ### System commands -/

/-- R175, R176: `NOP` succeeds in every state, and only the all-zero word is one; `MTF.SETSIZE` takes every size,
unless the fault lock turns it away. -/
def Obligations.NopAndSetsizeComplete : Prop :=
  (∀ s : State, exec .nop s = .next (ended s 0 0)) ∧
  (∀ w : Word, opOf w = 0 → decode w = if argOf w = 0 then .ok .nop else .error .nonzeroField) ∧
  (∀ (s : State) (size : Data), exec (.mtfSetsize size) s =
    .next (if s.faultFlag then ended s 5 0 else ended { s with size := size } 0 0))

/-- R24, R177: the four registers, field by field; an `RDCSR` changes no state of the core and leaves `STATUS`
alone, also where it raises `E_ILLEGAL`. -/
def Obligations.RdcsrReadsTheRegisters : Prop :=
  ∀ (s : State) (csr : Byte),
    (csr.toNat = 0 → exec (.rdcsr csr) s = .next (answered s 0 s.size)) ∧
    (∀ c : CodecConfig, csr.toNat = 1 ∧ c = s.enc ∨ csr.toNat = 2 ∧ c = s.dec →
      ∃ d : Data, exec (.rdcsr csr) s = .next (answered s 0 d) ∧
        d.extractLsb' 0 3 = c.logBase ∧ d.extractLsb' 3 5 = 0 ∧ d.getLsbD 8 = c.signed ∧ d.getLsbD 9 = c.valid ∧
        (d.extractLsb' 10 8).toNat = (if c.valid then 2 ^ c.logBase.toNat else 0) ∧ d.extractLsb' 18 6 = 0) ∧
    (csr.toNat = 3 →
      ∃ d : Data, exec (.rdcsr csr) s = .next (answered s 0 d) ∧
        d.extractLsb' 0 8 = s.status ∧ d.getLsbD 8 = s.faultFlag ∧ d.extractLsb' 9 15 = 0) ∧
    (4 ≤ csr.toNat → exec (.rdcsr csr) s = .next (answered s 3 0)) ∧
    (∀ w : Word, opOf w = 0x0C → 2 ^ 8 ≤ argOf w →
      decode w = .error .nonzeroField ∧ s.rejectWord w = answered s 3 0)

/-! ### Errors and the whole machine -/

/-- R199: while `FAULT = 1` every command but `NOP` and `RDCSR` raises `E_INTERNAL` and changes nothing but `STATUS`;
no command and no illegal word clears `FAULT`, reset does; decoding comes before the lock (priority 2 of R193). -/
def Obligations.FaultLock : Prop :=
  (∀ (i : Instr) (s : State), s.faultFlag = true → ignoresFault i = false → exec i s = .next (ended s 5 0)) ∧
  (∀ (i : Instr) (s t : State), exec i s = .next t → s.faultFlag = true → t.faultFlag = true) ∧
  (∀ (s : State) (w : Word), (s.rejectWord w).faultFlag = s.faultFlag ∧
    (s.rejectWord w).responses = s.responses ++ [(3 : Byte) ++ (0 : Data)]) ∧
  (∀ s : State, s.applyReset.faultFlag = false)

/-- R39, R199: whatever the host and the environment do, no step but a reset clears `FAULT`. The port is the model's
(log 1). -/
def Obligations.OnlyResetClearsFault : Prop :=
  ∀ s t : State, step s = .next t → s.faultFlag = true →
    t.faultFlag = true ∨ ∃ rest, s.port = .reset :: rest ∨ ∃ w n, s.port = .commandCut w n :: rest

/-- R8, R38, R72: every command word, legal or not, gets one response of a known status; an error carries no data;
`STATUS` takes the status, except for `op = 0x0C`. The port and the record of the responses are the model's
(log 1, 10). That EVERY word is answered rests on the model's choice of log 7: `DCH.bits` is finite and a channel call
returns, where R221 and R225 let an `RGD.DEC` wait for ever. -/
def Obligations.EveryCommandWordIsAnswered : Prop :=
  ∀ (s : State) (w : Word) (rest : List PortEvent), s.port = .command w :: rest →
    ∃ (t : State) (status : Byte) (data : Data), step s = .next t ∧
      t.responses = s.responses ++ [status ++ data] ∧ status.toNat ≤ 6 ∧ (status ≠ 0 → data = 0) ∧
      t.status = (if opOf w = 0x0C then s.status else status) ∧ t.port = rest

/-- R113: two states that differ in the rank structure only, both well-formed and with one global order, answer every
command alike and leave the same bytes and the same order. -/
def Obligations.ResponsesIgnoreThePartition : Prop :=
  ∀ (i : Instr) (s t t' : State) (r : RankStructure), s.rank.WF → s.rank.Quiescent → r.WF → r.Quiescent →
    r.order = s.rank.order → exec i s = .next t → exec i { s with rank := r } = .next t' →
    t'.responses = t.responses ∧ t'.buf = t.buf ∧ t'.rank.order = t.rank.order ∧ t'.status = t.status

/-- R42: the forward and the inverse engine share no state. -/
def Obligations.EnginesShareNoState : Prop :=
  (∀ (i : Instr) (s t : State) (idx : Table 8 Byte), isForward i = true → exec i s = .next t →
    t.idx = s.idx ∧ exec i { s with idx := idx } = .next { t with idx := idx }) ∧
  (∀ (i : Instr) (s t : State) (r : RankStructure), isInverse i = true → exec i s = .next t →
    t.rank = s.rank ∧ exec i { s with rank := r } = .next { t with rank := r })

/-- R43: what each command leaves unchanged, byte by byte for `BUF`. -/
def Obligations.CommandsWriteOnlyTheirRow : Prop :=
  ∀ (i : Instr) (s t : State), exec i s = .next t →
    (isForward i = false → t.rank = s.rank) ∧
    (isInverse i = false → t.idx = s.idx) ∧
    ((∀ n, i ≠ .mtfSetsize n) → t.size = s.size) ∧
    ((∀ b l, i ≠ .rgeCfg b l) → t.enc = s.enc) ∧
    ((∀ b l, i ≠ .rgdCfg b l) → t.dec = s.dec) ∧
    ((∀ v, i ≠ .rgeEnc v) → t.ech = s.ech) ∧
    (i ≠ .rgdDec → t.dch = s.dch) ∧
    (t.ech.isPresent = s.ech.isPresent ∧ t.dch.isPresent = s.dch.isPresent ∧ t.dch.bits = s.dch.bits) ∧
    ((∀ c, i ≠ .rdcsr c) → t.status.toNat ≤ 6) ∧ ((∃ c, i = .rdcsr c) → t.status = s.status) ∧
    (t.faultFlag = s.faultFlag ∨ isForward i = true ∧ t.status = 5) ∧
    (isBlock i = false → SameBytes s t) ∧
    (∀ len, i = .mtfFwd len ∨ i = .mtfInv len → s.buf.wf →
      ∀ a, (if s.size = 0 then len else s.size).toNat ≤ a → t.buf.readByte a = s.buf.readByte a) ∧
    t.port = s.port ∧ t.arg = s.arg

/-- R34, R35, R32, R36, R37, R39: the invariant holds after reset. -/
def Obligations.InvariantHoldsAtReset : Prop := State.reset.Inv

/-- R34, R35, R111, R124: every step, from every state in which the invariant holds, keeps it. -/
def Obligations.StepKeepsTheInvariant : Prop :=
  ∀ s t : State, s.Inv → step s = .next t → t.Inv

/-- R51, R58, R62, R217: what the host and the environment do between commands reaches only the surroundings; a reset
event is a reset (R210); with nothing in the port the core is idle (R201). The port is the model's (log 1, 2). -/
def Obligations.HostActionsReachOnlyTheSurroundings : Prop :=
  ∀ (s : State) (rest : List PortEvent),
    (∀ a v, s.port = .fillBuf a v :: rest → s.buf.wf →
      ∃ m : Memory, step s = .next { s with port := rest, buf := m } ∧ m.wf ∧
        ∀ b, m.readByte b = if b = a.toNat then v else s.buf.readByte b) ∧
    (∀ bs, s.port = .appendEch bs :: rest →
      step s = .next { s with port := rest, ech := { s.ech with bits := s.ech.bits ++ bs } }) ∧
    (∀ bs, s.port = .supplyDch bs :: rest →
      step s = .next { s with port := rest, dch := { s.dch with bits := s.dch.bits ++ bs } }) ∧
    (s.port = .reset :: rest → step s = .next ({ s with port := rest } : State).applyReset) ∧
    (∀ pos, s.port = .moveDch pos :: rest →
      step s = .next { s with port := rest, dch := { s.dch with pos := pos } }) ∧
    (∀ ech dch, s.port = .answerCalls ech dch :: rest →
      step s = .next { s with
        port := rest
        ech := { s.ech with answers := s.ech.answers ++ ech }
        dch := { s.dch with answers := s.dch.answers ++ dch } }) ∧
    (s.port = [] → step s = .next s)
end

