-- ==== Sys2Proof/Laws/Table.lean ====
section
/-! SUPPORT. The laws of a table: a read after a write, a read of a table written whole, equality by entries. -/

namespace Sys2Proof.Machine

theorem Table.read_write {w : Nat} {α : Type} (t : Table w α) (i j : BitVec w) (x : α) :
    (t.write i x).read j = if i = j then x else t.read j := by
  simp [Table.read, Table.write, Vector.getElem_set, BitVec.toNat_inj]

@[simp] theorem Table.read_write_self {w : Nat} {α : Type} (t : Table w α) (i : BitVec w) (x : α) :
    (t.write i x).read i = x := by
  simp [Table.read_write]

theorem Table.read_write_of_ne {w : Nat} {α : Type} (t : Table w α) {i j : BitVec w} (x : α) (h : i ≠ j) :
    (t.write i x).read j = t.read j := by
  simp [Table.read_write, h]

@[simp] theorem Table.read_tabulate {w : Nat} {α : Type} (f : BitVec w → α) (i : BitVec w) :
    (Table.tabulate f).read i = f i := by
  simp [Table.read, Table.tabulate]

theorem Table.ext_read {w : Nat} {α : Type} {t u : Table w α} (h : ∀ i, t.read i = u.read i) : t = u :=
  Vector.ext fun i hi => by simpa [Table.read] using h ⟨i, hi⟩

end Sys2Proof.Machine
end

