-- ==== Sys2Proof/Laws/Chain.lean ====
section
/-! SUPPORT. Paths through a table of links: what a walk along `NEXT` or `PREV` meets, and what one write to the table
does to it. The clauses (a), (b), (c) of 10_state.md R34 are two paths, one forward and one backward. -/

namespace Sys2Proof.Machine

/-- Following `f` from the link `p` meets exactly the nodes of the list, in order, and arrives at the link `q`. -/
def Path (f : Table 8 Link) : Link → List Byte → Link → Prop
  | p, [], q => p = q
  | p, v :: o, q => p = some v ∧ Path f (f.read v) o q

@[simp] theorem path_nil (f : Table 8 Link) (p q : Link) : Path f p [] q ↔ p = q := Iff.rfl

@[simp] theorem path_cons (f : Table 8 Link) (p q : Link) (v : Byte) (o : List Byte) :
    Path f p (v :: o) q ↔ p = some v ∧ Path f (f.read v) o q := Iff.rfl

theorem path_append (f : Table 8 Link) (p q : Link) (a b : List Byte) :
    Path f p (a ++ b) q ↔ ∃ l, Path f p a l ∧ Path f l b q := by
  induction a generalizing p with
  | nil => simp
  | cons v a ih => simp [ih, and_assoc]

/-- A path depends on the table at its own nodes only. -/
theorem path_congr {f g : Table 8 Link} {p q : Link} {o : List Byte} (h : ∀ v ∈ o, g.read v = f.read v) :
    Path g p o q ↔ Path f p o q := by
  induction o generalizing p with
  | nil => rfl
  | cons v o ih =>
    rw [path_cons, path_cons, h v (by simp), ih fun u hu => h u (by simp [hu])]

/-- A write to a node off the path leaves the path. -/
theorem path_write_of_notMem {f : Table 8 Link} {p q l : Link} {o : List Byte} {v : Byte} (h : v ∉ o) :
    Path (f.write v l) p o q ↔ Path f p o q :=
  path_congr fun _ hu => Table.read_write_of_ne f l fun e => h (e ▸ hu)

/-- The first link of a path that is not empty. -/
theorem path_head {f : Table 8 Link} {p q : Link} {o : List Byte} (h : Path f p o q) :
    p = o.head?.or q := by
  cases o with
  | nil => simpa using h
  | cons v o => simpa using h.1

/-- A path can be bent at its last node. -/
theorem path_bend_last {f : Table 8 Link} {p q l : Link} {a : List Byte} {u : Byte} (hn : u ∉ a)
    (h : Path f p (a ++ [u]) q) : Path (f.write u l) p (a ++ [u]) l := by
  obtain ⟨m, hm, hu⟩ := (path_append f p q a [u]).mp h
  refine (path_append _ _ _ a [u]).mpr ⟨m, (path_write_of_notMem hn).mpr hm, ?_⟩
  simpa using hu.1

/-- A node inside a path is left out by pointing the node before it to the node after it. -/
theorem path_skip {f : Table 8 Link} {p q : Link} {a b : List Byte} {u v : Byte}
    (hn : (a ++ u :: v :: b).Nodup) (h : Path f p (a ++ u :: v :: b) q) :
    Path (f.write u (f.read v)) p (a ++ u :: b) q := by
  have hu : u ∉ a ∧ u ∉ b := by
    simp only [List.nodup_append, List.nodup_cons, List.mem_cons] at hn
    exact ⟨fun hm => hn.2.2 u hm u (by simp) rfl, fun hm => hn.2.1.1 (.inr hm)⟩
  have e : a ++ u :: v :: b = (a ++ [u]) ++ v :: b := by simp
  rw [e] at h
  obtain ⟨m, hm, -, hb⟩ := (path_append f p q _ _).mp h
  have e' : a ++ u :: b = (a ++ [u]) ++ b := by simp
  rw [e', path_append]
  exact ⟨f.read v, path_bend_last hu.1 hm, (path_write_of_notMem hu.2).mpr hb⟩

/-- What a walk of `n` nodes meets on a path to `NIL`. -/
theorem chainFrom_of_path {f : Table 8 Link} {p : Link} {o : List Byte} (h : Path f p o none) (n : Nat) :
    chainFrom f n p = o.take n := by
  induction o generalizing p n with
  | nil => cases n <;> simp_all [chainFrom]
  | cons v o ih =>
    obtain ⟨rfl, h⟩ := h
    cases n with
    | zero => rfl
    | succ n => simp [chainFrom, ih h n]

/-- A walk that meets `n` nodes is a path, to the link after its last node. -/
theorem path_of_chainFrom {f : Table 8 Link} {n : Nat} {p : Link} (h : (chainFrom f n p).length = n) :
    ∃ q, Path f p (chainFrom f n p) q ∧ ∀ v, (chainFrom f n p).getLast? = some v → q = f.read v := by
  induction n generalizing p with
  | zero => exact ⟨p, rfl, by simp [chainFrom]⟩
  | succ n ih =>
    cases p with
    | none => simp [chainFrom] at h
    | some v =>
      simp only [chainFrom, List.length_cons, Nat.add_right_cancel_iff] at h
      obtain ⟨q, hp, hq⟩ := ih h
      refine ⟨q, ⟨rfl, hp⟩, fun w hw => ?_⟩
      simp only [chainFrom, List.getLast?_cons, Option.some.injEq] at hw
      cases hc : (chainFrom f n (f.read v)).getLast? with
      | none =>
        rw [List.getLast?_eq_none_iff] at hc
        simp only [hc, List.getLast?_nil, Option.getD_none] at hw
        rw [hc, path_nil] at hp
        rw [← hp, hw]
      | some x => exact hw ▸ hq w (by simp [hc] at hw ⊢; exact hw)

/-- The walk of `RANKQ` along a path finds the symbol at its position (40_mtf_forward.md R99). -/
theorem walkTo_of_path {f : Table 8 Link} {v : Byte} {p q : Link} {a b : List Byte}
    (h : Path f p (a ++ v :: b) q) (hv : v ∉ a) {more : Nat} (hm : a.length ≤ more) (n : Nat) :
    walkTo f v more n p = some (n + a.length) := by
  induction a generalizing p more n with
  | nil =>
    obtain ⟨rfl, -⟩ := h
    cases more <;> simp [walkTo]
  | cons u a ih =>
    obtain ⟨rfl, h⟩ := h
    have hne : u ≠ v := fun e => hv (by simp [e])
    cases more with
    | zero => simp at hm
    | succ more =>
      simp only [walkTo, Option.some.injEq, hne, if_false]
      rw [ih h (fun hm => hv (by simp [hm])) (by simpa using hm)]
      simp; omega

/-- The inner loop of `CARVE` along a path: the link after the segment, and `BKT` of the segment's nodes
(40_mtf_forward.md R91). -/
theorem carveSegment_of_path {f : Table 8 Link} (k : BitVec 4) {p q : Link} {a : List Byte} (h : Path f p a q)
    (bkt : Table 8 (BitVec 4)) :
    ∃ bkt', carveSegment f k a.length p bkt = some (q, bkt') ∧
      ∀ v, bkt'.read v = if v ∈ a then k else bkt.read v := by
  induction a generalizing p bkt with
  | nil => exact ⟨bkt, by simpa [carveSegment] using h, by simp⟩
  | cons u a ih =>
    obtain ⟨rfl, h⟩ := h
    obtain ⟨bkt', e, hb⟩ := ih h (bkt.write u k)
    refine ⟨bkt', by simpa [carveSegment] using e, fun v => ?_⟩
    rw [hb v, Table.read_write]
    by_cases hva : v ∈ a
    · simp [hva]
    · by_cases hu : u = v
      · simp [hu]
      · simp [hva, hu, Ne.symm hu]

/-- The outer loop of `CARVE` along a path of 17 nodes per listed bucket (40_mtf_forward.md R91). -/
theorem carveBuckets_of_path {ks : List (BitVec 4)} (hks : ks.Nodup) {r : RankStructure} {p : Link} {o : List Byte}
    (h : Path r.next p o none) (hlen : o.length = 17 * ks.length) (hn : o.Nodup) :
    ∃ r', carveBuckets ks p r = some r' ∧ r'.next = r.next ∧ r'.prev = r.prev ∧ r'.prevSym = r.prevSym ∧
      (∀ k ∉ ks, r'.len.read k = r.len.read k ∧ r'.head.read k = r.head.read k) ∧
      (∀ i k, ks[i]? = some k → r'.len.read k = 17 ∧ r'.head.read k = o[17 * i]?) ∧
      (∀ v ∉ o, r'.bkt.read v = r.bkt.read v) ∧
      (∀ j v, o[j]? = some v → ks[j / 17]? = some (r'.bkt.read v)) := by
  induction ks generalizing r p o with
  | nil =>
    obtain rfl : o = [] := by simpa using hlen
    exact ⟨r, rfl, rfl, rfl, rfl, by simp, by simp, by simp, by simp⟩
  | cons k ks ih =>
    obtain ⟨hk, hks⟩ := List.nodup_cons.mp hks
    have hlen' : o.length = 17 + 17 * ks.length := by simp only [List.length_cons] at hlen; omega
    have hsplit : o.take 17 ++ o.drop 17 = o := List.take_append_drop 17 o
    have htake : (o.take 17).length = 17 := by rw [List.length_take]; omega
    rw [← hsplit] at h hn
    obtain ⟨q, ha, hb⟩ := (path_append r.next p none _ _).mp h
    obtain ⟨-, hnb, hdisj⟩ := List.nodup_append.mp hn
    obtain ⟨bkt, hseg, hbkt⟩ := carveSegment_of_path k ha r.bkt
    obtain ⟨r', e, h1, h2, h3, h4, h5, h6, h7⟩ :=
      ih hks (r := { r with head := r.head.write k p, len := r.len.write k (BitVec.ofNat 7 Config.blen), bkt := bkt })
        (p := q) (o := o.drop 17) hb (by rw [List.length_drop]; omega) hnb
    refine ⟨r', ?_, h1, h2, h3, fun l hl => ?_, fun i l hl => ?_, fun v hv => ?_, fun j v hv => ?_⟩
    · rw [htake] at hseg
      simp only [carveBuckets, Config.blen, hseg]
      exact e
    · simp only [List.mem_cons, not_or] at hl
      obtain ⟨a1, a2⟩ := h4 l hl.2
      rw [a1, a2]
      exact ⟨Table.read_write_of_ne _ _ (Ne.symm hl.1), Table.read_write_of_ne _ _ (Ne.symm hl.1)⟩
    · cases i with
      | zero =>
        obtain rfl : k = l := by simpa using hl
        obtain ⟨a1, a2⟩ := h4 k hk
        rw [a1, a2]
        refine ⟨by simp [Config.blen], ?_⟩
        rw [path_head h]
        cases o with
        | nil => simp at hlen'; omega
        | cons => simp
      | succ i =>
        obtain ⟨a1, a2⟩ := h5 i l (by simpa using hl)
        rw [a1, a2, List.getElem?_drop]
        exact ⟨rfl, by congr 1; omega⟩
    · rw [h6 v fun hm => hv (List.mem_of_mem_drop hm)]
      simp only [hbkt v, if_neg fun hm => hv (List.mem_of_mem_take hm)]
    · by_cases hj : j < 17
      · have hm : v ∈ o.take 17 := List.mem_of_getElem? (by rw [List.getElem?_take_of_lt hj]; exact hv)
        have hnd : v ∉ o.drop 17 := fun hd => hdisj v hm v hd rfl
        rw [h6 v hnd, Nat.div_eq_of_lt hj]
        simp [hbkt v, hm]
      · have hd : (o.drop 17)[j - 17]? = some v := by
          rw [List.getElem?_drop]
          rwa [show 17 + (j - 17) = j by omega]
        rw [← h7 (j - 17) v hd, show j / 17 = (j - 17) / 17 + 1 by omega]
        rfl

end Sys2Proof.Machine
end

