-- ==== Sys2Proof/Laws/Rank.lean ====
section
/-! SUPPORT. The rank structure: its chain as two paths, the offsets of its buckets, its canonical state. -/

namespace Sys2Proof.Machine

/-- The order is the path from the front, when the path has 256 nodes. -/
theorem order_of_path {r : RankStructure} {o : List Byte} (h : Path r.next (r.head.read 0) o none)
    (hlen : o.length = 256) : r.order = o := by
  rw [RankStructure.order, chainFrom_of_path h, ← hlen, List.take_length]

/-- Links that run backward along a list, given by neighbours, are a path through the reversed list. -/
theorem path_reverse_of_neighbours {f : Table 8 Link} {o : List Byte}
    (hfirst : ∀ v, o[0]? = some v → f.read v = none)
    (hback : ∀ j u w, o[j]? = some u → o[j + 1]? = some w → f.read w = some u) :
    Path f o.getLast? o.reverse none := by
  induction o using List.reverseRecOn with
  | nil => rfl
  | append_singleton o w ih =>
    rw [List.reverse_append, List.getLast?_concat]
    refine ⟨rfl, ?_⟩
    have hlast : f.read w = o.getLast? := by
      rcases List.eq_nil_or_concat o with rfl | ⟨o', u, rfl⟩
      · exact hfirst w rfl
      · simp only [List.concat_eq_append, List.getLast?_concat]
        exact hback o'.length u w (by simp) (by simp)
    show Path f (f.read w) o.reverse none
    rw [hlast]
    refine ih (fun v hv => hfirst v ?_) (fun j u x hu hx => hback j u x ?_ ?_)
    all_goals
      rw [List.getElem?_append_left]
      · assumption
      · exact (List.getElem?_eq_some_iff.mp ‹_›).1

/-- A path through the reversed list gives back the neighbours. -/
theorem neighbours_of_path_reverse {f : Table 8 Link} {o : List Byte} {p : Link} (h : Path f p o.reverse none) :
    (∀ v, o[0]? = some v → f.read v = none) ∧
    (∀ j u w, o[j]? = some u → o[j + 1]? = some w → f.read w = some u) := by
  induction o using List.reverseRecOn generalizing p with
  | nil => simp
  | append_singleton o w ih =>
    rw [List.reverse_append] at h
    obtain ⟨-, h⟩ : p = some w ∧ Path f (f.read w) o.reverse none := h
    obtain ⟨h1, h2⟩ := ih h
    have hw : f.read w = o.getLast? := by
      rw [path_head h, List.head?_reverse, Option.or_none]
    refine ⟨fun v hv => ?_, fun j u x hu hx => ?_⟩
    · cases o with
      | nil => obtain rfl : w = v := by simpa using hv
               simpa using hw
      | cons y o => exact h1 v (by simpa using hv)
    · obtain ⟨hj, -⟩ := List.getElem?_eq_some_iff.mp hx
      rw [List.length_append, List.length_singleton] at hj
      have hu' : o[j]? = some u := by rwa [List.getElem?_append_left (by omega)] at hu
      by_cases hlt : j + 1 < o.length
      · exact h2 j u x hu' (by rwa [List.getElem?_append_left hlt] at hx)
      · have hjl : j = o.length - 1 := by omega
        obtain rfl : w = x := by
          rw [show j + 1 = o.length by omega] at hx
          simpa using hx
        rw [hw, List.getLast?_eq_getElem?, ← hjl, hu']

/-- The clauses (a), (b), (c) of R34 are a forward and a backward path through 256 distinct nodes. -/
theorem chained_iff {r : RankStructure} :
    r.Chained ↔ r.order.length = 256 ∧ r.order.Nodup ∧ Path r.next (r.head.read 0) r.order none ∧
      Path r.prev r.order.getLast? r.order.reverse none := by
  constructor
  · rintro ⟨⟨hlen, hn⟩, ⟨hlast, hfirst⟩, hback⟩
    refine ⟨hlen, hn, ?_, path_reverse_of_neighbours hfirst fun j u w hu hw => ?_⟩
    · obtain ⟨q, hp, hq⟩ := path_of_chainFrom (f := r.next) (n := 256) (p := r.head.read 0) hlen
      have hx : ∃ x, r.order[255]? = some x := ⟨_, List.getElem?_eq_getElem (by omega)⟩
      obtain ⟨x, hx⟩ := hx
      have : q = none := by
        rw [hq x (by rw [List.getLast?_eq_getElem?]; exact (show (chainFrom r.next 256 (r.head.read 0)).length - 1 = 255 by
          rw [show (chainFrom r.next 256 (r.head.read 0)).length = 256 from hlen]) ▸ hx)]
        exact hlast x hx
      rw [this] at hp
      exact hp
    · obtain ⟨hj, -⟩ := List.getElem?_eq_some_iff.mp hw
      exact hback j (by omega) u w hu hw
  · rintro ⟨hlen, hn, hp, hb⟩
    obtain ⟨h1, h2⟩ := neighbours_of_path_reverse hb
    refine ⟨⟨hlen, hn⟩, ⟨fun v hv => ?_, h1⟩, fun j _ u w hu hw => h2 j u w hu hw⟩
    have hne : r.order ≠ [] := fun e => by simp [e] at hlen
    obtain ⟨o, w, he⟩ := (List.eq_nil_or_concat r.order).resolve_left hne
    rw [List.concat_eq_append] at he
    rw [he] at hp hlen hv
    obtain ⟨m, -, hw⟩ := (path_append _ _ _ _ _).mp hp
    have hol : o.length = 255 := by simpa using hlen
    obtain rfl : w = v := by
      rw [List.getElem?_append_right (by omega), hol] at hv
      simpa using hv
    simpa using hw.2

/-- A list that the links of a structure run through both ways is its order, and the structure is chained. -/
theorem chained_of_paths {r : RankStructure} {o : List Byte} (hlen : o.length = 256) (hn : o.Nodup)
    (hp : Path r.next (r.head.read 0) o none) (hb : Path r.prev o.getLast? o.reverse none) :
    r.order = o ∧ r.Chained := by
  have ho := order_of_path hp hlen
  exact ⟨ho, chained_iff.mpr (by rw [ho]; exact ⟨hlen, hn, hp, hb⟩)⟩

/-- A list of 256 distinct symbols holds every symbol. -/
theorem mem_of_full {o : List Byte} (hlen : o.length = 256) (hn : o.Nodup) (v : Byte) : v ∈ o := by
  have hsub : o.map (·.toNat) ⊆ List.range 256 := fun n hm => by
    obtain ⟨u, -, rfl⟩ := List.mem_map.mp hm
    exact List.mem_range.mpr u.isLt
  have hperm : (o.map (·.toNat)).Perm (List.range 256) :=
    (List.subperm_of_subset (hn.map fun a b h => BitVec.eq_of_toNat_eq h) hsub).perm_of_length_le (by simp [hlen])
  obtain ⟨u, hu, e⟩ := List.mem_map.mp (hperm.mem_iff.mpr (List.mem_range.mpr v.isLt))
  exact BitVec.eq_of_toNat_eq e ▸ hu

/-! ### Offsets (R33) -/

theorem bucketOffset_zero (r : RankStructure) : bucketOffset r 0 = 0 := rfl

theorem bucketOffset_succ (r : RankStructure) (k : Nat) :
    bucketOffset r (k + 1) = bucketOffset r k + (r.len.read (BitVec.ofNat 4 k)).toNat := by
  simp [bucketOffset, List.range_succ]

theorem bucketOffset_mono (r : RankStructure) {k l : Nat} (h : k ≤ l) : bucketOffset r k ≤ bucketOffset r l := by
  induction h with
  | refl => exact le_refl _
  | step _ ih => exact ih.trans (by rw [bucketOffset_succ]; omega)

/-- Offsets depend on the lengths only. -/
theorem bucketOffset_congr {r r' : RankStructure} (h : ∀ k, r'.len.read k = r.len.read k) (k : Nat) :
    bucketOffset r' k = bucketOffset r k := by
  simp [bucketOffset, h]

/-- Every position below 256 lies in one bucket's slice, when the lengths sum to 256. -/
theorem exists_bucket_of_lt {r : RankStructure} (h : r.LengthsSum) {j : Nat} (hj : j < 256) :
    ∃ k : BitVec 4, bucketOffset r k.toNat ≤ j ∧ j < bucketOffset r (k.toNat + 1) := by
  have key : ∀ n, n ≤ 16 → j < bucketOffset r n →
      ∃ k < n, bucketOffset r k ≤ j ∧ j < bucketOffset r (k + 1) := by
    intro n hn hlt
    induction n with
    | zero => simp [bucketOffset] at hlt
    | succ n ih =>
      by_cases h' : j < bucketOffset r n
      · obtain ⟨k, hk, hk'⟩ := ih (by omega) h'
        exact ⟨k, by omega, hk'⟩
      · exact ⟨n, by omega, by omega, hlt⟩
  obtain ⟨k, hk, h1, h2⟩ := key 16 (le_refl _) (by rw [show bucketOffset r 16 = 256 from h]; exact hj)
  refine ⟨BitVec.ofNat 4 k, ?_⟩
  rw [BitVec.toNat_ofNat, Nat.mod_eq_of_lt (by omega)]
  exact ⟨h1, h2⟩

end Sys2Proof.Machine
end

