-- ==== Sys2Proof/Laws/Carve.lean ====
section
/-! SUPPORT. `CARVE` (40_mtf_forward.md R91) on a chain through all nodes: what it writes, and that the partition it leaves
is well-formed. -/

namespace Sys2Proof.Machine

/-- The buckets that `CARVE` fills in its outer loop (R91). -/
abbrev restK : List (BitVec 4) := [1, 2, 3, 4, 5, 6, 7, 8, 9, 10, 11, 12, 13, 14, 15]

theorem restK_get : ∀ i < 15, restK[i]? = some (BitVec.ofNat 4 (i+1)) := by decide

/-- The offsets of the canonical partition (R35). -/
theorem carve_offsets {r : RankStructure} (h0 : r.len.read 0 = 1) (h : ∀ k : BitVec 4, k ≠ 0 → r.len.read k = 17) :
    ∀ k, 1 ≤ k → k ≤ 16 → bucketOffset r k = 1 + 17 * (k - 1) := by
  intro k hk hk'
  induction k with
  | zero => omega
  | succ k ih =>
    rw [bucketOffset_succ]
    by_cases hz : k = 0
    · subst hz
      rw [bucketOffset_zero, show BitVec.ofNat 4 0 = (0 : BitVec 4) from rfl, h0]
      rfl
    · rw [ih (by omega) (by omega), h]
      · simp; omega
      · intro e
        have := congrArg BitVec.toNat e
        simp at this; omega

/-- `CARVE` on a path through all nodes (R91): everything it writes. -/
theorem carve_of_path {r : RankStructure} {o : List Byte} (hlen : o.length = 256) (hn : o.Nodup)
   (hp : Path r.next (r.head.read 0) o none) :
    ∃ r', carve r = some r' ∧ r'.next = r.next ∧ r'.prev = r.prev ∧ r'.head.read 0 = r.head.read 0 ∧
      r'.prevSym = r.prevSym ∧
      r'.len.read 0 = 1 ∧ (∀ k : BitVec 4, k ≠ 0 → r'.len.read k = 17) ∧
      (∀ k : BitVec 4, k ≠ 0 → r'.head.read k = o[1 + 17 * (k.toNat - 1)]?) ∧
      (∀ v, o[0]? = some v → r'.bkt.read v = 0) ∧
      (∀ j v, 1 ≤ j → o[j]? = some v → (r'.bkt.read v).toNat = 1 + (j - 1) / 17) := by
  cases o with
  | nil => simp at hlen
  | cons u o =>
    obtain ⟨hh, hp⟩ := hp
    obtain ⟨hu, hn⟩ := List.nodup_cons.mp hn
    obtain ⟨r', e, h1, h2, h3, h4, h5, h6, h7⟩ := carveBuckets_of_path (ks := restK) (by decide)
      (r := { r with len := r.len.write 0 (BitVec.ofNat 7 Config.b0len), bkt := r.bkt.write u 0 }) hp
      (by simpa using hlen) hn
    obtain ⟨a0, b0⟩ := h4 0 (by decide)
    have hkk : ∀ k : BitVec 4, k ≠ 0 → restK[k.toNat - 1]? = some k := by decide
    refine ⟨r', ?_, h1, h2, ?_, h3, ?_, ?_, ?_, ?_, ?_⟩
    · simp only [carve, hh]; exact e
    · rw [b0]
    · rw [a0]; simp [Config.b0len]
    · intro k hk; exact (h5 _ k (hkk k hk)).1
    · intro k hk; rw [(h5 _ k (hkk k hk)).2, Nat.add_comm]; rfl
    · intro v hv
      obtain rfl : u = v := by simpa using hv
      rw [h6 u hu]; simp
    · intro j v hj hv
      have hv' : o[j-1]? = some v := by
        obtain ⟨j, rfl⟩ := Nat.exists_eq_add_of_le' hj
        simpa using hv
      have := h7 _ v hv'
      have hl := (List.getElem?_eq_some_iff.mp hv').1
      have hol : o.length = 255 := by simpa using hlen
      rw [restK_get _ (by omega)] at this
      rw [← Option.some.inj this, BitVec.toNat_ofNat]
      omega

/-- A canonical partition of the order meets R34 (d) to (f) and R35. -/
theorem partition_canonical {r : RankStructure} (h0 : r.len.read 0 = 1) (h : ∀ k : BitVec 4, k ≠ 0 → r.len.read k = 17)
   (hz : r.head.read 0 = r.order[0]?)
   (hh : ∀ k : BitVec 4, k ≠ 0 → r.head.read k = r.order[1 + 17 * (k.toNat - 1)]?)
   (hb0 : ∀ v, r.order[0]? = some v → r.bkt.read v = 0)
   (hb : ∀ j v, 1 ≤ j → r.order[j]? = some v → (r.bkt.read v).toNat = 1 + (j - 1) / 17) :
   r.LengthsSum ∧ r.HeadsAtOffsets ∧ r.BucketsNamed ∧ r.Quiescent := by
  have off := carve_offsets h0 h
  refine ⟨off 16 (by omega) (by omega), ?_, ?_, ?_⟩
  · intro k _
    by_cases hk : k = 0
    · subst hk; simpa [bucketOffset] using hz
    · have : 1 ≤ k.toNat := by
        rcases Nat.eq_zero_or_pos k.toNat with e | e
        · exact absurd (BitVec.eq_of_toNat_eq e) hk
        · exact e
      rw [hh k hk, off _ this (by omega)]
  · intro k j v h1 h2 hv
    by_cases hk : k = 0
    · subst hk
      simp only [show (0 : BitVec 4).toNat = 0 from rfl, Nat.zero_add, off 1 (by omega) (by omega)] at h2
      obtain rfl : j = 0 := by omega
      exact hb0 v hv
    · have hk1 : 1 ≤ k.toNat := by
        rcases Nat.eq_zero_or_pos k.toNat with e | e
        · exact absurd (BitVec.eq_of_toNat_eq e) hk
        · exact e
      have hk2 := k.isLt
      rw [off _ hk1 (by omega)] at h1
      rw [off _ (by omega) (by omega)] at h2
      apply BitVec.eq_of_toNat_eq
      rw [hb j v (by omega) hv]
      omega
  · refine ⟨by rw [h0]; decide, by rw [h0]; decide, fun k hk => by simp [h k hk, Config.blen]⟩

end Sys2Proof.Machine
end

