-- ==== Sys2Proof/Laws/Promote.lean ====
section
/-! SUPPORT. The micro-operations of the forward step (40_mtf_forward.md R97 to R108) on a well-formed structure: the rank
query, the links, the bookkeeping. -/

namespace Sys2Proof.Machine

/-- `UNLINK` (R103) takes a node that is not the first out of both paths. -/
theorem unlink_paths {r : RankStructure} {a b : List Byte} {v : Byte} {p : Link} (hn : (a ++ v :: b).Nodup) (ha : a ≠ [])
    (hp : Path r.next p (a ++ v :: b) none)
    (hb : Path r.prev (a ++ v :: b).getLast? (a ++ v :: b).reverse none) :
    ∃ r', unlink r v = some r' ∧ Path r'.next p (a ++ b) none ∧ Path r'.prev (a ++ b).getLast? (a ++ b).reverse none ∧
      r.next.read v = b.head? ∧ r'.head = r.head ∧ r'.len = r.len ∧ r'.bkt = r.bkt ∧ r'.prevSym = r.prevSym := by
  obtain ⟨a', u, rfl⟩ := (List.eq_nil_or_concat a).resolve_left ha
  rw [List.concat_eq_append] at *
  have hpv : r.prev.read v = some u := by
    refine (neighbours_of_path_reverse hb).2 a'.length u v ?_ ?_
    · simp
    · simp
  have hnv : r.next.read v = b.head? := by
    obtain ⟨m, -, -, h⟩ := (path_append _ _ _ _ _).mp hp
    simpa using path_head h
  have e1 : a' ++ [u] ++ v :: b = a' ++ u :: v :: b := by simp
  have e2 : a' ++ [u] ++ b = a' ++ u :: b := by simp
  have hp' := path_skip (by rw [← e1]; exact hn) (e1 ▸ hp)
  refine ⟨{ r with
      next := r.next.write u (r.next.read v)
      prev := match r.next.read v with
        | none => r.prev
        | some q => r.prev.write q (some u) }, by simp only [unlink, hpv] <;> rfl, ?_, ?_, hnv, rfl, rfl, rfl, rfl⟩
  · rw [e2]; exact hp'
  · simp only [hnv]
    cases b with
    | nil =>
      simp only [List.head?_nil, List.append_nil]
      rw [List.getLast?_append] at hb
      simp only [List.getLast?_singleton, List.reverse_append, List.reverse_singleton, List.singleton_append, path_cons] at hb
      obtain ⟨-, -, hb⟩ := hb
      simpa using hb
    | cons q b =>
      have e3 : (a' ++ [u] ++ v :: q :: b).reverse = b.reverse ++ q :: v :: (a' ++ [u]).reverse := by simp
      rw [e3] at hb
      have := path_skip (by rw [← e3]; exact List.nodup_reverse.mpr hn) hb
      rw [hpv] at this
      simp only [List.head?_cons]
      have e4 : (a' ++ [u] ++ q :: b).reverse = b.reverse ++ q :: (a' ++ [u]).reverse := by simp
      rw [e4]
      have e5 : (a' ++ [u] ++ v :: q :: b).getLast? = (a' ++ [u] ++ q :: b).getLast? := by
        have e6 : a' ++ [u] ++ v :: q :: b = (a' ++ [u] ++ [v]) ++ q :: b := by simp
        rw [e6, List.getLast?_append, List.getLast?_append (l := a' ++ [u]) (l' := q :: b), List.getLast?_cons]
        rfl
      rw [← e5]
      exact this

/-- `RELINK0` (R105) puts a node that is off both paths at their front. -/
theorem relinkFront_paths {r : RankStructure} {h : Byte} {c : List Byte} {v : Byte} (hn : (v :: h :: c).Nodup) 
    (hp : Path r.next (r.head.read 0) (h :: c) none)
    (hb : Path r.prev (h :: c).getLast? (h :: c).reverse none) :
    ∃ r', relinkFront r v = some r' ∧ Path r'.next (r'.head.read 0) (v :: h :: c) none ∧
      Path r'.prev (v :: h :: c).getLast? (v :: h :: c).reverse none ∧
      r'.head = r.head.write 0 (some v) ∧ r'.len = r.len ∧ r'.bkt = r.bkt ∧ r'.prevSym = r.prevSym := by
  obtain ⟨hv, hn'⟩ := List.nodup_cons.mp hn
  refine ⟨{ r with
      next := r.next.write v (some h)
      prev := (r.prev.write v none).write h (some v)
      head := r.head.write 0 (some v) }, by simp only [relinkFront, hp.1], ?_, ?_, rfl, rfl, rfl, rfl⟩
  · refine ⟨by simp, ?_⟩
    simp only [Table.read_write_self]
    rw [path_write_of_notMem hv]
    rw [hp.1] at hp; exact hp
  · rw [List.reverse_cons, path_append]
    refine ⟨some v, ?_, rfl, ?_⟩
    · rw [List.reverse_cons] at hb ⊢
      refine path_bend_last (l := some v) (q := none) (by simpa using (List.nodup_cons.mp hn').1) ?_
      rw [path_write_of_notMem]
      · simpa using hb
      · simp only [List.mem_append, List.mem_reverse, List.mem_singleton]
        simp only [List.mem_cons] at hv
        tauto
    · show Table.read _ v = none
      rw [Table.read_write_of_ne _ _ (fun e => hv (by simp [e])), Table.read_write_self]

/-- `HEAD` after `UNLINK`, the head update and `RELINK0` (R104, R105). -/
def newHead (r : RankStructure) (v : Byte) (k i : BitVec 4) (nn : Link) : Link :=
  if i = 0 then some v else if i = k ∧ r.head.read k = some v then nn else r.head.read i

/-- The links and heads after R103, R104 and R105, for a symbol that is not the first. -/
theorem promote_links {r : RankStructure} {a b : List Byte} {v : Byte} (k : BitVec 4) (hn : (a ++ v :: b).Nodup) (ha : a ≠ [])
    (hp : Path r.next (r.head.read 0) (a ++ v :: b) none)
    (hb : Path r.prev (a ++ v :: b).getLast? (a ++ v :: b).reverse none) :
    ∃ r₁ r₂, unlink r v = some r₁ ∧ relinkFront (updateHead r₁ v k (r.next.read v)) v = some r₂ ∧
      Path r₂.next (r₂.head.read 0) (v :: (a ++ b)) none ∧
      Path r₂.prev (v :: (a ++ b)).getLast? (v :: (a ++ b)).reverse none ∧
      (∀ i, r₂.head.read i = newHead r v k i b.head?) ∧ r₂.len = r.len ∧ r₂.bkt = r.bkt := by
  obtain ⟨r₁, e1, h1, h2, h3, h4, h5, h6, h7⟩ := unlink_paths hn ha hp hb
  have hu : (updateHead r₁ v k (r.next.read v)).next = r₁.next ∧ (updateHead r₁ v k (r.next.read v)).prev = r₁.prev ∧
    (updateHead r₁ v k (r.next.read v)).len = r₁.len ∧ (updateHead r₁ v k (r.next.read v)).bkt = r₁.bkt ∧
    (updateHead r₁ v k (r.next.read v)).head.read 0 = r.head.read 0 := by
    unfold updateHead
    split
    · next hk =>
      refine ⟨rfl, rfl, rfl, rfl, ?_⟩
      rw [Table.read_write_of_ne _ _ hk.1, h4]
    · rw [h4]; simp
  cases hab : a ++ b with
  | nil => simp at hab; exact absurd hab.1 ha
  | cons h c =>
    rw [hab] at h1 h2
    have hn2 : (v :: h :: c).Nodup := by
      rw [← hab]
      exact (List.perm_middle.nodup_iff).mp hn
    obtain ⟨r₂, e2, g1, g2, g3, g4, g5, -⟩ := relinkFront_paths (r := updateHead r₁ v k (r.next.read v)) (v := v) (h := h) (c := c) hn2
      (by rw [hu.1, hu.2.2.2.2]; exact h1) (by rw [hu.2.1]; exact h2)
    refine ⟨r₁, r₂, e1, e2, g1, g2, ?_, by rw [g4, hu.2.2.1, h5], by rw [g5, hu.2.2.2.1, h6]⟩
    intro i
    rw [g3, Table.read_write, newHead]
    by_cases hi : i = 0
    · simp [hi]
    · rw [if_neg (Ne.symm hi), if_neg hi]
      unfold updateHead
      rw [h4]
      by_cases hk : r.head.read k = some v
      · by_cases hik : i = k
        · subst hik
          rw [if_pos ⟨hi, hk⟩, if_pos ⟨rfl, hk⟩, Table.read_write_self, h3]
        · split
          · rw [Table.read_write_of_ne _ _ (Ne.symm hik), if_neg (by tauto)]
          · rw [if_neg (by tauto), h4]
      · rw [if_neg (by tauto), if_neg (by tauto), h4]

/-- `RANKQ` (R98 to R101) answers the symbol's position in the order. -/
theorem rankQuery_spec {r : RankStructure} (hw : r.WF) {a b : List Byte} {v : Byte} (ho : r.order = a ++ v :: b) (k : BitVec 4)
   (h1 : bucketOffset r k.toNat ≤ a.length) (h2 : a.length < bucketOffset r (k.toNat + 1)) :
   rankQuery r v k = some a.length := by
  obtain ⟨hc, hs, hh, hb, hf⟩ := hw
  obtain ⟨hlen, hn, hp, -⟩ := chained_iff.mp hc
  rw [bucketOffset_succ] at h2
  simp only [BitVec.ofNat_toNat, BitVec.setWidth_eq] at h2
  have hk : r.len.read k ≠ 0 := by intro e; rw [e] at h2; simp at h2; omega
  have hhead := hh k hk
  set f := bucketOffset r k.toNat with hf'
  have hsplit : r.order = a.take f ++ (a.drop f ++ v :: b) := by
    rw [ho, ← List.append_assoc, List.take_append_drop]
  rw [hsplit] at hp
  obtain ⟨m, -, hp2⟩ := (path_append _ _ _ _ _).mp hp
  have hm : m = r.head.read k := by
    rw [path_head hp2, hhead, hsplit, List.getElem?_append_right (by rw [List.length_take]; omega), List.length_take,
       Nat.min_eq_left h1, Nat.sub_self, Option.or_none, List.head?_eq_getElem?]
  have hva : v ∉ a.drop f := fun hm => by
    rw [ho] at hn
    exact (List.nodup_append.mp hn).2.2 v (List.mem_of_mem_drop hm) v (by simp) rfl
  rw [hm] at hp2
  rw [rankQuery, walkTo_of_path hp2 hva (by rw [List.length_drop]; omega) 0]
  simp only [Option.map_some, Option.some.injEq, List.length_drop]
  omega

theorem toNat_pos_of_ne {k : BitVec 4} (hk : k ≠ 0) : 1 ≤ k.toNat := by
  rcases Nat.eq_zero_or_pos k.toNat with e | e
  · exact absurd (BitVec.eq_of_toNat_eq e) hk
  · exact e

/-- The offsets after `BOOKKEEP` (R106): the buckets 1 to `k` start one place later. -/
theorem bookkeep_offsets {r r' : RankStructure} {k : BitVec 4} (hk : k ≠ 0) (hlk : 1 ≤ (r.len.read k).toNat) (hl0 : (r.len.read 0).toNat ≤ 64)
  (hlen : r'.len = (r.len.write 0 (r.len.read 0 + 1)).write k (r.len.read k - 1)) :
  ∀ i, i ≤ 16 → bucketOffset r' i = if i = 0 then 0 else if i ≤ k.toNat then bucketOffset r i + 1 else bucketOffset r i := by
  have hkp := toNat_pos_of_ne hk
  intro i hi
  induction i with
  | zero => rfl
  | succ i ih =>
    rw [bucketOffset_succ, bucketOffset_succ, ih (by omega), hlen]
    by_cases h0 : i = 0
    · subst h0
      simp only [if_true]
      rw [show BitVec.ofNat 4 0 = (0 : BitVec 4) from rfl, Table.read_write_of_ne _ _ hk, Table.read_write_self, bucketOffset_zero]
      rw [if_neg (by omega), if_pos (by omega), BitVec.toNat_add]
      have : (1 : BitVec 7).toNat = 1 := rfl
      rw [this]
      omega
    · by_cases hik : i = k.toNat
      · subst hik
        simp only [BitVec.ofNat_toNat, BitVec.setWidth_eq, Table.read_write_self]
        rw [if_neg h0, if_pos (le_refl _), if_neg (by omega), if_neg (by omega), BitVec.toNat_sub]
        have : (1 : BitVec 7).toNat = 1 := rfl
        rw [this]
        have := (r.len.read k).isLt
        omega
      · have hne : k ≠ BitVec.ofNat 4 i := by
          intro e
          have := congrArg BitVec.toNat e
          simp at this
          omega
        have hne0 : (0 : BitVec 4) ≠ BitVec.ofNat 4 i := by
          intro e
          have := congrArg BitVec.toNat e
          simp at this
          omega
        rw [Table.read_write_of_ne _ _ hne, Table.read_write_of_ne _ _ hne0]
        rw [if_neg h0, if_neg (show ¬ i + 1 = 0 by omega)]
        by_cases hle : i ≤ k.toNat
        · rw [if_pos hle, if_pos (show i + 1 ≤ k.toNat by omega)]; omega
        · rw [if_neg hle, if_neg (show ¬ i + 1 ≤ k.toNat by omega)]

/-- The entries of a list after one of them has moved to the front. -/
theorem moved_get {a b : List Byte} {v : Byte} (m : Nat) :
    (v :: (a ++ b))[m]? = if m = 0 then some v else if m ≤ a.length then (a ++ v :: b)[m-1]? else (a ++ v :: b)[m]? := by
  cases m with
  | zero => rfl
  | succ m =>
    simp only [List.getElem?_cons_succ, Nat.add_eq_zero_iff, Nat.one_ne_zero, and_false, if_false, Nat.add_sub_cancel]
    split
    · rw [List.getElem?_append_left (by omega), List.getElem?_append_left (by omega)]
    · rw [List.getElem?_append_right (by omega), List.getElem?_append_right (by omega)]
      rw [show m + 1 - a.length = (m - a.length) + 1 by omega, List.getElem?_cons_succ]

/-- The order of a well-formed structure starts with `PREV_SYM`. -/
theorem order_starts_with_prevSym {r : RankStructure} (hw : r.WF) : ∃ o, r.order = r.prevSym :: o := by
  have h0 := hw.2.2.2.2
  rw [RankStructure.FrontRemembered] at h0
  cases ho : r.order with
  | nil => rw [ho] at h0; simp at h0
  | cons u o =>
    rw [ho] at h0
    obtain rfl : u = r.prevSym := by simpa using h0
    exact ⟨o, rfl⟩

/-- A promotion within bucket 0 keeps R34 (d) to (f) and R35. -/
theorem wf_of_promote_from_front {r r₃ : RankStructure} {a b : List Byte} {v : Byte} (hs : r.LengthsSum) (hh : r.HeadsAtOffsets) (hb : r.BucketsNamed)
    (hq : r.Quiescent) (ho : r.order = a ++ v :: b) (hk2 : a.length < bucketOffset r 1) (hbk : r.bkt.read v = 0)
    (hord : r₃.order = v :: (a ++ b)) (g3 : ∀ i, r₃.head.read i = newHead r v 0 i b.head?) (g4 : r₃.len = r.len) (g5 : r₃.bkt = r.bkt) :
    r₃.LengthsSum ∧ r₃.HeadsAtOffsets ∧ r₃.BucketsNamed ∧ r₃.Quiescent := by
  have off : ∀ i, bucketOffset r₃ i = bucketOffset r i := bucketOffset_congr fun i => by rw [g4]
  have hk2' : a.length < bucketOffset r 1 := hk2
  refine ⟨by rw [RankStructure.LengthsSum, off]; exact hs, ?_, ?_, ?_⟩
  · intro i hi
    show r₃.head.read i = _
    rw [hord]
    show r₃.head.read i = (v :: (a ++ b))[bucketOffset r₃ i.toNat]?
    rw [off, g3, newHead]
    by_cases hi0 : i = 0
    · subst hi0; rw [if_pos rfl]; rfl
    · rw [if_neg hi0, if_neg (fun h => hi0 h.1)]
      have hi' : r.len.read i ≠ 0 := by rw [← g4]; exact hi
      rw [hh i hi', moved_get, ho]
      have := bucketOffset_mono r (toNat_pos_of_ne hi0)
      rw [if_neg (by omega), if_neg (by omega)]
  · intro i j x hj1 hj2 hx
    rw [hord] at hx
    have hj1' : bucketOffset r i.toNat ≤ j := off _ ▸ hj1
    have hj2' : j < bucketOffset r (i.toNat + 1) := off _ ▸ hj2
    show r₃.bkt.read x = i
    rw [g5]
    rw [moved_get, ← ho] at hx
    by_cases hi0 : i = 0
    · subst hi0
      split at hx
      · rw [← Option.some.inj hx]; exact hbk
      · split at hx
        · exact hb 0 _ x (Nat.zero_le _) (by show j - 1 < bucketOffset r 1; omega) hx
        · exact hb 0 _ x (Nat.zero_le _) hj2' hx
    · have := bucketOffset_mono r (toNat_pos_of_ne hi0)
      rw [if_neg (by omega), if_neg (by omega)] at hx
      exact hb i _ x hj1' hj2' hx
  · obtain ⟨q1, q2, q3⟩ := hq
    exact ⟨by rw [g4]; exact q1, by rw [g4]; exact q2, fun i hi => by rw [g4]; exact q3 i hi⟩

/-- A promotion out of another bucket that needs no rebalance keeps R34 (d) to (f) and R35. -/
theorem wf_of_promote_from_other {r r₃ : RankStructure} {a b : List Byte} {v : Byte} {k : BitVec 4} (hk0 : k ≠ 0) (hn : (a ++ v :: b).Nodup) (hs : r.LengthsSum) (hh : r.HeadsAtOffsets) (hb : r.BucketsNamed)
    (hq : r.Quiescent) (ho : r.order = a ++ v :: b) (hk1 : bucketOffset r k.toNat ≤ a.length) (hk2 : a.length < bucketOffset r (k.toNat + 1))
    (hord : r₃.order = v :: (a ++ b)) (g3 : ∀ i, r₃.head.read i = newHead r v k i b.head?)
    (g4 : r₃.len = (r.len.write 0 (r.len.read 0 + 1)).write k (r.len.read k - 1)) (g5 : r₃.bkt = r.bkt.write v 0)
    (hcarve : ¬ (Config.thresh < (r₃.len.read 0).toNat ∨ r₃.len.read k = 0)) :
    r₃.LengthsSum ∧ r₃.HeadsAtOffsets ∧ r₃.BucketsNamed ∧ r₃.Quiescent := by
  obtain ⟨q1, q2, q3⟩ := hq
  have hkq := q3 k hk0
  have hvj : r.order[a.length]? = some v := by rw [ho]; simp
  have off := bookkeep_offsets (r' := r₃) hk0 hkq.1 q2 g4
  have hkp := toNat_pos_of_ne hk0
  have hk16 := k.isLt
  have len0 : (r₃.len.read 0).toNat = (r.len.read 0).toNat + 1 := by
    rw [g4, Table.read_write_of_ne _ _ hk0, Table.read_write_self, BitVec.toNat_add]
    have : (1 : BitVec 7).toNat = 1 := rfl
    rw [this]; simp only [Config.thresh] at q2; omega
  have lenk : (r₃.len.read k).toNat = (r.len.read k).toNat - 1 := by
    rw [g4, Table.read_write_self, BitVec.toNat_sub]
    have : (1 : BitVec 7).toNat = 1 := rfl
    have := (r.len.read k).isLt
    omega
  have leni : ∀ i, i ≠ 0 → i ≠ k → r₃.len.read i = r.len.read i := by
    intro i h0 h1
    rw [g4, Table.read_write_of_ne _ _ (Ne.symm h1), Table.read_write_of_ne _ _ (Ne.symm h0)]
  have hmem : ∀ m, (a ++ v :: b)[m]? = some v → m = a.length := by
    intro m hm
    have hml := (List.getElem?_eq_some_iff.mp hm).1
    exact (List.getElem?_inj hml hn).mp (by rw [hm]; simp)
  refine ⟨?_, ?_, ?_, ?_⟩
  · rw [RankStructure.LengthsSum]
    show bucketOffset r₃ 16 = 256
    rw [off 16 (le_refl _), if_neg (by omega), if_neg (by omega)]; exact hs
  · intro i hi
    show r₃.head.read i = _
    rw [hord]
    show r₃.head.read i = (v :: (a ++ b))[bucketOffset r₃ i.toNat]?
    rw [off _ (by have := i.isLt; omega), g3, newHead]
    by_cases hi0 : i = 0
    · subst hi0; rw [if_pos rfl]; rfl
    · have hip := toNat_pos_of_ne hi0
      rw [if_neg hi0, if_neg (show ¬ i.toNat = 0 by omega)]
      have hli := q3 i hi0
      have hsucc : bucketOffset r (i.toNat + 1) = bucketOffset r i.toNat + (r.len.read i).toNat := by
        rw [bucketOffset_succ]; simp
      have hnz : r.len.read i ≠ 0 := by
        intro e
        have h := hli.1
        rw [e] at h; exact absurd h (by decide)
      have hhi := hh i hnz
      by_cases hik : i = k
      · subst hik
        rw [if_pos (le_refl i.toNat)]
        by_cases hhd : r.head.read i = some v
        · rw [if_pos ⟨rfl, hhd⟩]
          have hj : bucketOffset r i.toNat = a.length := by
            rw [hhi, ho] at hhd
            exact hmem _ hhd
          rw [hj, moved_get, if_neg (by omega), if_neg (by omega), List.getElem?_append_right (by omega)]
          simp [List.head?_eq_getElem?]
        · rw [if_neg (fun h => hhd h.2), hhi]
          have hlt : bucketOffset r i.toNat < a.length := by
            rcases Nat.lt_or_ge (bucketOffset r i.toNat) a.length with h | h
            · exact h
            · exfalso
              have : bucketOffset r i.toNat = a.length := by omega
              rw [hhi, this, hvj] at hhd
              exact hhd rfl
          rw [moved_get, if_neg (by omega), if_pos (by omega), Nat.add_sub_cancel, ho]
      · rw [if_neg (fun h => hik h.1), hhi]
        by_cases hlt : i.toNat ≤ k.toNat
        · have hlt' : i.toNat + 1 ≤ k.toNat := by
            rcases Nat.lt_or_eq_of_le hlt with h | h
            · exact h
            · exact absurd (BitVec.eq_of_toNat_eq h) hik
          have := bucketOffset_mono r hlt'
          rw [if_pos hlt, moved_get, if_neg (by omega), if_pos (by omega), Nat.add_sub_cancel, ho]
        · have := bucketOffset_mono r (show k.toNat + 1 ≤ i.toNat by omega)
          rw [if_neg hlt, moved_get, if_neg (by omega), if_neg (by omega), ho]
  · intro i j x hj1 hj2 hx
    rw [hord] at hx
    have hi16 := i.isLt
    have hj1' : bucketOffset r₃ i.toNat ≤ j := hj1
    have hj2' : j < bucketOffset r₃ (i.toNat + 1) := hj2
    rw [off _ (by omega)] at hj1' hj2'
    rw [if_neg (by omega)] at hj2'
    show r₃.bkt.read x = i
    rw [g5]
    rw [moved_get] at hx
    by_cases hj0 : j = 0
    · subst hj0
      rw [if_pos rfl] at hx
      obtain rfl := Option.some.inj hx
      rw [Table.read_write_self]
      by_contra hne
      have hip := toNat_pos_of_ne (Ne.symm hne)
      rw [if_neg (show ¬ i.toNat = 0 by omega)] at hj1'
      have hmono := bucketOffset_mono r hip
      have h1 : bucketOffset r 1 = (r.len.read 0).toNat := by rw [bucketOffset_succ, bucketOffset_zero, Nat.zero_add]; rfl
      split at hj1' <;> omega
    · rw [if_neg hj0] at hx
      have hxv : v ≠ x := by
        rintro rfl
        split at hx
        · have := hmem _ hx; omega
        · have := hmem _ hx; omega
      rw [Table.read_write_of_ne _ _ hxv]
      rw [← ho] at hx
      split at hx
      · -- moved from j-1
        next hle =>
        refine hb i (j-1) x ?_ ?_ hx
        · by_cases hi0 : i = 0
          · subst hi0; exact Nat.zero_le _
          · have := toNat_pos_of_ne hi0
            rw [if_neg (show ¬ i.toNat = 0 by omega)] at hj1'
            split at hj1'
            · omega
            · have := bucketOffset_mono r (show k.toNat + 1 ≤ i.toNat by omega)
              omega
        · split at hj2'
          · omega
          · omega
      · next hgt =>
        refine hb i j x ?_ ?_ hx
        · by_cases hi0 : i = 0
          · subst hi0; exact Nat.zero_le _
          · have := toNat_pos_of_ne hi0
            rw [if_neg (show ¬ i.toNat = 0 by omega)] at hj1'
            split at hj1' <;> omega
        · split at hj2'
          · have := bucketOffset_mono r (show i.toNat + 1 ≤ k.toNat by omega)
            omega
          · omega
  · simp only [not_or, Nat.not_lt] at hcarve
    have hck : 1 ≤ (r₃.len.read k).toNat := by
      rcases Nat.eq_zero_or_pos (r₃.len.read k).toNat with e | e
      · exact absurd (BitVec.eq_of_toNat_eq e) hcarve.2
      · exact e
    refine ⟨by omega, hcarve.1, fun i hi => ?_⟩
    by_cases hik : i = k
    · subst hik; exact ⟨hck, by omega⟩
    · rw [leni i hi hik]; exact q3 i hi

end Sys2Proof.Machine
end

