-- ==== Sys2Proof/Laws/Canonical.lean ====
section
/-! SUPPORT. The canonical state of the rank structure (10_state.md R41): it is well-formed, and `RESETBAL`
(40_mtf_forward.md R93) always gives exactly it. -/

namespace Sys2Proof.Machine

/-- The identity chain 0, 1, ..., 255. -/
abbrev identityChain : List Byte := (List.range 256).map (BitVec.ofNat 8)

theorem identityChain_length : identityChain.length = 256 := by simp [identityChain]

theorem identityChain_nodup : identityChain.Nodup :=
  List.Nodup.map_on (fun x hx y hy h => by
    have h := congrArg BitVec.toNat h
    rw [List.mem_range] at hx hy
    simp only [BitVec.toNat_ofNat] at h
    omega) List.nodup_range

theorem identityChain_get {j : Nat} (hj : j < 256) : identityChain[j]? = some (BitVec.ofNat 8 j) := by
  simp [identityChain, List.getElem?_range hj]

theorem identityChain_get_toNat (v : Byte) : identityChain[v.toNat]? = some v := by
  rw [identityChain_get v.isLt]; simp

/-- The path of `NEXT` that R93 relinks. -/
theorem chainNext_path : Path chainNext (some 0) identityChain none := by
  have e : chainFrom chainNext 256 (some 0) = identityChain := by decide +kernel
  obtain ⟨q, hp, hq⟩ := path_of_chainFrom (f := chainNext) (n := 256) (p := some 0) (by rw [e, identityChain_length])
  rw [e] at hp hq
  have := hq 255 (by rw [List.getLast?_eq_getElem?, identityChain_length]; exact identityChain_get (by omega))
  rw [this] at hp
  have h255 : chainNext.read 255 = none := by simp [chainNext]
  rwa [h255] at hp

/-- The path of `PREV` that R93 relinks. -/
theorem chainPrev_path : Path chainPrev identityChain.getLast? identityChain.reverse none := by
  refine path_reverse_of_neighbours (fun v hv => ?_) (fun j u w hu hw => ?_)
  · rw [identityChain_get (by omega)] at hv
    rw [← Option.some.inj hv]; simp [chainPrev]
  · have hj : j + 1 < 256 := by
      have := (List.getElem?_eq_some_iff.mp hw).1
      rwa [identityChain_length] at this
    rw [identityChain_get (by omega)] at hu hw
    rw [← Option.some.inj hu, ← Option.some.inj hw, chainPrev, Table.read_tabulate, if_neg]
    · congr 1
      apply BitVec.eq_of_toNat_eq
      rw [BitVec.toNat_sub]
      simp
      omega
    · intro e
      have := congrArg BitVec.toNat e
      simp at this
      omega

/-- `RESETBAL` gives the canonical state whatever the state was (R93, R41). -/
theorem resetbal_eq (r : RankStructure) : resetbal r = RankStructure.canonical := by
  have hp : Path (relinkIdentity r).next ((relinkIdentity r).head.read 0) identityChain none := by
    simpa [relinkIdentity] using chainNext_path
  obtain ⟨r', e, h1, h2, h3, h4, h5, h6, h7, h8, h9⟩ := carve_of_path identityChain_length identityChain_nodup hp
  have hlen : r'.len = RankStructure.canonical.len := Table.ext_read fun k => by
    by_cases hk : k = 0
    · subst hk; rw [h5]; simp [RankStructure.canonical]
    · rw [h6 k hk]; simp only [RankStructure.canonical, Table.read_tabulate, if_neg hk]
  have hhead : r'.head = RankStructure.canonical.head := Table.ext_read fun k => by
    by_cases hk : k = 0
    · subst hk; rw [h3]; simp [RankStructure.canonical, relinkIdentity]
    · have := k.isLt
      rw [h7 k hk, identityChain_get (by omega)]; simp only [RankStructure.canonical, Table.read_tabulate, if_neg hk]
  have hbkt : r'.bkt = RankStructure.canonical.bkt := Table.ext_read fun v => by
    by_cases hv : v = 0
    · subst hv; rw [h8 0 (identityChain_get (by omega))]; simp [RankStructure.canonical]
    · have hpos : 1 ≤ v.toNat := by
        rcases Nat.eq_zero_or_pos v.toNat with e | e
        · exact absurd (BitVec.eq_of_toNat_eq e) hv
        · exact e
      have := v.isLt
      apply BitVec.eq_of_toNat_eq
      rw [h9 _ v hpos (identityChain_get_toNat v)]
      simp only [RankStructure.canonical, Table.read_tabulate, if_neg hv, BitVec.toNat_ofNat]
      omega
  rw [resetbal, e]
  cases r'
  simp only [RankStructure.canonical] at *
  simp_all [relinkIdentity]

/-- The order of the canonical state (R93, R117). -/
theorem canonical_order : RankStructure.canonical.order = identityChain :=
  order_of_path chainNext_path identityChain_length

/-- The canonical state is well-formed and within the quiescent bounds (R34, R35, R95). -/
theorem canonical_wf : RankStructure.canonical.WF ∧ RankStructure.canonical.Quiescent := by
  obtain ⟨ho, hc⟩ := chained_of_paths (r := RankStructure.canonical) identityChain_length identityChain_nodup
    chainNext_path chainPrev_path
  have := partition_canonical (r := RankStructure.canonical) rfl
    (fun k hk => by simp only [RankStructure.canonical, Table.read_tabulate, if_neg hk])
    (by rw [ho, identityChain_get (by omega)]; simp [RankStructure.canonical])
    (fun k hk => by
      have := k.isLt
      rw [ho, identityChain_get (by omega)]; simp only [RankStructure.canonical, Table.read_tabulate, if_neg hk])
    (fun v hv => by
      rw [ho, identityChain_get (by omega)] at hv
      rw [← Option.some.inj hv]; simp [RankStructure.canonical])
    (fun j v hj hv => by
      have hlt : j < 256 := by
        have := (List.getElem?_eq_some_iff.mp hv).1
        rwa [ho, identityChain_length] at this
      rw [ho, identityChain_get hlt] at hv
      obtain rfl := Option.some.inj hv
      have hne : BitVec.ofNat 8 j ≠ 0 := fun e => by
        have := congrArg BitVec.toNat e
        simp at this
        omega
      simp only [RankStructure.canonical, Table.read_tabulate, if_neg hne, BitVec.toNat_ofNat]
      omega)
  refine ⟨⟨hc, this.1, this.2.1, this.2.2.1, ?_⟩, this.2.2.2⟩
  rw [RankStructure.FrontRemembered, ho, identityChain_get (by omega)]
  rfl

/-- Any partition of the identity order whose heads and bucket names agree with its lengths is well-formed (R34). -/
theorem wf_of_identity_partition {r : RankStructure} (hn : r.next = chainNext) (hp : r.prev = chainPrev)
    (h0 : r.head.read 0 = some 0) (hs : r.LengthsSum) (hf : r.prevSym = 0)
    (hh : ∀ k : BitVec 4, r.len.read k ≠ 0 → r.head.read k = some (BitVec.ofNat 8 (bucketOffset r k.toNat)))
    (hb : ∀ v : Byte, bucketOffset r (r.bkt.read v).toNat ≤ v.toNat ∧
      v.toNat < bucketOffset r ((r.bkt.read v).toNat + 1)) :
    r.WF ∧ r.order = identityChain := by
  obtain ⟨ho, hc⟩ := chained_of_paths (r := r) identityChain_length identityChain_nodup
    (by rw [hn, h0]; exact chainNext_path) (by rw [hp]; exact chainPrev_path)
  refine ⟨⟨hc, hs, fun k hk => ?_, fun k j v h1 h2 hv => ?_, ?_⟩, ho⟩
  · have hlt : bucketOffset r k.toNat < 256 := by
      have h1 := bucketOffset_mono r (show k.toNat + 1 ≤ 16 by have := k.isLt; omega)
      have h2 : bucketOffset r (k.toNat + 1) = bucketOffset r k.toNat + (r.len.read k).toNat := by
        rw [bucketOffset_succ]; simp
      have h3 : (r.len.read k).toNat ≠ 0 := fun e => hk (BitVec.eq_of_toNat_eq e)
      rw [show bucketOffset r 16 = 256 from hs] at h1
      omega
    rw [hh k hk, ho, identityChain_get hlt]
  · have hlt : j < 256 := by
      have := (List.getElem?_eq_some_iff.mp hv).1
      rwa [ho, identityChain_length] at this
    rw [ho, identityChain_get hlt] at hv
    have hj : v.toNat = j := by
      rw [← Option.some.inj hv, BitVec.toNat_ofNat]; omega
    obtain ⟨b1, b2⟩ := hb v
    apply BitVec.eq_of_toNat_eq
    rcases Nat.lt_trichotomy (r.bkt.read v).toNat k.toNat with h | h | h
    · have := bucketOffset_mono r (show (r.bkt.read v).toNat + 1 ≤ k.toNat from h)
      omega
    · exact h
    · have := bucketOffset_mono r (show k.toNat + 1 ≤ (r.bkt.read v).toNat from h)
      omega
  · rw [RankStructure.FrontRemembered, ho, identityChain_get (by omega), hf]
    rfl

end Sys2Proof.Machine
end

