-- ==== Sys2Proof/Laws/Channel.lean ====
section
/-! SUPPORT. The bit channels (20_memory.md R58 to R66): the bits of a number in transmission order, and what each call of a
channel can do. -/

namespace Sys2Proof.Machine

/-! ### Bits -/

theorem msbFirst_length (v n : Nat) : (msbFirst v n).length = n := by
  induction n with
  | zero => rfl
  | succ n ih => simp [msbFirst, ih]

/-- The bits of a number by their places. -/
theorem msbFirst_eq_map (v n : Nat) : msbFirst v n = (List.range n).map fun j => v.testBit (n - 1 - j) := by
  induction n with
  | zero => rfl
  | succ n ih =>
    rw [msbFirst, ih, List.range_succ_eq_map, List.map_cons, List.map_map]
    refine congrArg₂ _ (by simp) (List.map_congr_left fun j _ => ?_)
    simp only [Function.comp]
    congr 1
    omega

/-- The high bits go first. -/
theorem msbFirst_add (v a b : Nat) : msbFirst v (a + b) = msbFirst (v >>> b) a ++ msbFirst v b := by
  induction a with
  | zero => simp [msbFirst]
  | succ a ih =>
    rw [show a + 1 + b = a + b + 1 by omega, msbFirst, msbFirst, ih, Nat.testBit_shiftRight, Nat.add_comm b a]
    rfl

/-- A number below `2^b` written in more than `b` bits begins with zeros. -/
theorem msbFirst_of_lt {v b : Nat} (h : v < 2 ^ b) (a : Nat) :
    msbFirst v (a + b) = List.replicate a false ++ msbFirst v b := by
  rw [msbFirst_add, Nat.shiftRight_eq_div_pow, Nat.div_eq_of_lt h]
  congr 1
  induction a with
  | zero => rfl
  | succ a ih => rw [msbFirst, ih, Nat.zero_testBit]; rfl

theorem bitsValue_nil : bitsValue [] = 0 := rfl

theorem bitsValue_append (a b : List Bool) : bitsValue (a ++ b) = bitsValue a * 2 ^ b.length + bitsValue b := by
  have key : ∀ (l : List Bool) (n : Nat),
      l.foldl (fun acc b => 2 * acc + b.toNat) n = n * 2 ^ l.length + bitsValue l := by
    intro l
    induction l with
    | nil => intro n; simp [bitsValue]
    | cons x l ih =>
      intro n
      rw [bitsValue, List.foldl_cons, List.foldl_cons, ih, ih, List.length_cons, Nat.pow_succ]
      ring
  rw [bitsValue, List.foldl_append, key b]
  rfl

theorem bitsValue_lt (l : List Bool) : bitsValue l < 2 ^ l.length := by
  induction l using List.reverseRecOn with
  | nil => simp [bitsValue]
  | append_singleton l b ih =>
    rw [bitsValue_append, List.length_append, List.length_singleton, Nat.pow_add]
    have hb : bitsValue [b] ≤ 1 := by cases b <;> decide
    omega

/-- A string of zeros is the number 0, and no other string is. -/
theorem bitsValue_eq_zero {l : List Bool} : bitsValue l = 0 ↔ ∀ b ∈ l, b = false := by
  induction l using List.reverseRecOn with
  | nil => simp [bitsValue]
  | append_singleton l b ih =>
    rw [bitsValue_append]
    simp only [List.length_singleton, Nat.add_eq_zero_iff, Nat.mul_eq_zero, List.mem_append, List.mem_singleton]
    rw [ih]
    constructor
    · rintro ⟨h | h, hb⟩ x (hx | rfl)
      · exact h x hx
      · cases x <;> simp [bitsValue] at hb ⊢
      · simp at h
      · cases x <;> simp [bitsValue] at hb ⊢
    · intro h
      refine ⟨.inl fun x hx => h x (.inl hx), ?_⟩
      rw [h b (.inr rfl)]; rfl

/-- Reading back the bits of a number gives its low bits. -/
theorem bitsValue_msbFirst (v n : Nat) : bitsValue (msbFirst v n) = v % 2 ^ n := by
  induction n with
  | zero => simp [msbFirst, bitsValue, Nat.mod_one]
  | succ n ih =>
    rw [show msbFirst v (n + 1) = [v.testBit n] ++ msbFirst v n from rfl, bitsValue_append, ih, msbFirst_length,
      Nat.mod_pow_succ, Nat.testBit_eq_decide_div_mod_eq]
    rcases Nat.mod_two_eq_zero_or_one (v / 2 ^ n) with h | h <;> simp [h, bitsValue] <;> omega

/-! ### The calls -/

/-- A call of the output channel appends the bits or, failing, nothing (R59, R60). -/
theorem writeBits_cases (c : OutChannel) (v n : Nat) :
    (c.answers.head? ≠ some false ∧
      c.writeBits v n = (true, { c with bits := c.bits ++ msbFirst v n, answers := c.answers.tail })) ∨
    (c.answers.head? = some false ∧ c.writeBits v n = (false, { c with answers := c.answers.tail })) := by
  obtain ⟨p, bits, answers⟩ := c
  rcases answers with _ | ⟨_ | _, answers⟩ <;> simp [OutChannel.writeBits]

/-- A call of `ReadBit` takes the next bit or, failing, nothing (R63, R65). -/
theorem readBit_cases (c : InChannel) :
    (∃ b, c.answers.head? ≠ some false ∧ c.bits[c.pos]? = some b ∧
      c.readBit = (some b, { c with pos := c.pos + 1, answers := c.answers.tail })) ∨
    ((c.answers.head? = some false ∨ c.bits[c.pos]? = none) ∧
      c.readBit = (none, { c with answers := c.answers.tail })) := by
  obtain ⟨p, bits, pos, answers, draws⟩ := c
  rcases h : bits[pos]? with _ | b <;> rcases answers with _ | ⟨_ | _, answers⟩ <;> simp_all [InChannel.readBit]

/-- A call of `ReadBits` takes the next `n` bits or, failing, moves the cursor by at most `n` (R64, R65). -/
theorem readBits_cases (c : InChannel) (n : Nat) :
    (c.answers.head? ≠ some false ∧ c.pos + n ≤ c.bits.length ∧
      c.readBits n = (some (bitsValue ((c.bits.drop c.pos).take n)),
        { c with pos := c.pos + n, answers := c.answers.tail })) ∨
    ((c.answers.head? = some false ∨ c.bits.length < c.pos + n) ∧ ∃ d ≤ n,
      c.readBits n = (none, { c with pos := c.pos + d, answers := c.answers.tail, draws := c.draws + 1 })) := by
  obtain ⟨p, bits, pos, answers, draws⟩ := c
  have hd : Config.freeAdvance draws % (n + 1) ≤ n := by
    have := Nat.mod_lt (Config.freeAdvance draws) (show 0 < n + 1 by omega)
    omega
  by_cases h : pos + n ≤ bits.length
  · rcases answers with _ | ⟨_ | _, answers⟩
    · exact .inl (by simp [InChannel.readBits, h])
    · exact .inr ⟨by simp, _, hd, by simp [InChannel.readBits]⟩
    · exact .inl (by simp [InChannel.readBits, h])
  · refine .inr ⟨.inr (by simp only; omega), _, hd, ?_⟩
    rw [InChannel.readBits, if_neg fun hh => h hh.2]

end Sys2Proof.Machine
end

