-- ==== Sys2Proof/Laws/Decode.lean ====
section
/-! SUPPORT. The fields of a command word (30_encoding.md R70, R71) and what the decoder does with them. -/

namespace Sys2Proof

theorem opField_encode (i : Instr) : opField (encode i) = i.opcode :=
  BitVec.extractLsb'_append_eq_left

theorem argField_encode (i : Instr) : argField (encode i) = i.operand :=
  BitVec.extractLsb'_append_eq_right

/-- A word is its two fields (R70). -/
theorem opField_append_argField (w : Word) : opField w ++ argField w = w := by
  ext i hi
  rw [opField, argField, BitVec.getElem_append]
  split
  · simp [BitVec.getLsbD_eq_getElem hi]
  · simp only [BitVec.getElem_extractLsb']
    rw [show 24 + (i - 24) = i by omega, BitVec.getLsbD_eq_getElem hi]

theorem byteField_eq (w : Word) : byteField w = (argField w).setWidth 8 := by
  simp [byteField, argField]
  ext i hi
  simp
  omega

theorem signedField_eq (w : Word) : signedField w = (argField w).getLsbD 8 := by
  simp [signedField, argField]

theorem opField_toNat (w : Word) : (opField w).toNat = w.toNat / 2 ^ 24 := by
  have := w.isLt
  simp only [opField, BitVec.extractLsb'_toNat, Nat.shiftRight_eq_div_pow]
  omega

theorem argField_toNat (w : Word) : (argField w).toNat = w.toNat % 2 ^ 24 := by
  simp [argField, BitVec.extractLsb'_toNat]

/-- A must-be-zero field is zero exactly when the operand is below its lowest bit's weight (R71). -/
theorem zeroAbove_iff (n : Nat) (w : Word) : zeroAbove n w = true ↔ (argField w).toNat < 2 ^ n := by
  rw [zeroAbove, beq_iff_eq, ← BitVec.toNat_inj, BitVec.toNat_ushiftRight, Nat.shiftRight_eq_div_pow]
  simp [Nat.div_eq_zero_iff]

end Sys2Proof
end

