-- ==== Sys2Proof/Laws/Decoder.lean ====
section
/-! SUPPORT. Parsing a codeword (43_rg_decoder.md R159 to R165): what it leaves of the input channel, the prefix and the
remainder where the environment lets the calls succeed, and the prefix where a read fails. -/

namespace Sys2Proof.Machine

/-- The reads of a decode move the cursor forward, use up answers and draw free values; they change nothing else. -/
def InChannel.After (c c' : InChannel) : Prop :=
  c'.isPresent = c.isPresent ∧ c'.bits = c.bits ∧ c.pos ≤ c'.pos

theorem InChannel.After.refl (c : InChannel) : c.After c := ⟨rfl, rfl, le_refl _⟩

theorem InChannel.After.trans {a b c : InChannel} (h : a.After b) (h' : b.After c) : a.After c :=
  ⟨h'.1.trans h.1, h'.2.1.trans h.2.1, h.2.2.trans h'.2.2⟩

theorem readBit_after (c : InChannel) : c.After c.readBit.2 := by
  rcases readBit_cases c with ⟨b, -, -, e⟩ | ⟨-, e⟩ <;> rw [e]
  · exact ⟨rfl, rfl, Nat.le_succ _⟩
  · exact ⟨rfl, rfl, le_refl _⟩

theorem readBits_after (c : InChannel) (n : Nat) : c.After (c.readBits n).2 := by
  rcases readBits_cases c n with ⟨-, -, e⟩ | ⟨-, d, -, e⟩ <;> rw [e] <;> exact ⟨rfl, rfl, Nat.le_add_right _ _⟩

theorem readUnary_after (n q : Nat) (c : InChannel) : c.After (readUnary n q c).2 := by
  induction n generalizing q c with
  | zero => exact readBit_after c
  | succ n ih =>
    have h := readBit_after c
    rw [readUnary]
    split
    · next e => rw [e] at h; exact h
    · next e => rw [e] at h; exact h
    · next e => rw [e] at h; exact h.trans (ih _ _)

theorem readSign_after (signed : Bool) (magnitude : Nat) (c : InChannel) :
    c.After (readSign signed magnitude c).2 := by
  unfold readSign
  split
  · exact readBit_after c
  · exact .refl c

/-- A decode, succeeding or not, changes of the channel only the cursor, forward (R65, R165, R166). -/
theorem parseCodeword_after (signed : Bool) (logBase : Nat) (c : InChannel) :
    c.After (parseCodeword signed logBase c).2 := by
  have h := readUnary_after (c.bits.length - c.pos) 0 c
  rw [parseCodeword]
  split
  · next e => rw [e] at h; exact h
  · next q c₁ e =>
    rw [e] at h
    have h₂ := h.trans (readBits_after c₁ logBase)
    split
    · next e => rw [e] at h₂; exact h₂
    · next r c₂ e =>
      rw [e] at h₂
      have h₃ := h₂.trans (readSign_after signed (q * 2 ^ logBase + r) c₂)
      split <;> (next e => rw [e] at h₃; exact h₃)

/-! ### Reads that the environment lets succeed -/

/-- The next call succeeds when the answers to the next `n + 1` calls are all true. -/
theorem head_ne_false {l : List Bool} {n : Nat} (h : ∀ b ∈ l.take (n + 1), b = true) : l.head? ≠ some false := by
  cases l with
  | nil => simp
  | cons b l => have := h b (by simp); simp [this]

/-- Answers that let the next `a + b` calls succeed let `b` calls succeed after `a`. -/
theorem answers_drop {l : List Bool} {a b : Nat} (h : ∀ x ∈ l.take (a + b), x = true) :
    ∀ x ∈ (l.drop a).take b, x = true := fun x hx => by
  rw [List.take_drop] at hx
  exact h x (List.mem_of_mem_drop hx)

/-- A `ReadBit` takes the next bit. -/
theorem readBit_ok {c : InChannel} {b : Bool} {l : List Bool} (hc : c.answers.head? ≠ some false)
    (hb : c.bits.drop c.pos = b :: l) :
    c.readBit = (some b, { c with pos := c.pos + 1, answers := c.answers.tail }) := by
  have hg : c.bits[c.pos]? = some b := by
    have := congrArg List.head? hb
    simpa using this
  rcases readBit_cases c with ⟨b', -, h2, h3⟩ | ⟨h1 | h1, -⟩
  · rw [hg] at h2; obtain rfl := Option.some.inj h2; exact h3
  · exact absurd h1 hc
  · rw [hg] at h1; simp at h1

/-- A `ReadBits` takes the next bits. -/
theorem readBits_ok {c : InChannel} {m l : List Bool} (hc : c.answers.head? ≠ some false)
    (hb : c.bits.drop c.pos = m ++ l) (hp : c.pos ≤ c.bits.length) :
    c.readBits m.length =
      (some (bitsValue m), { c with pos := c.pos + m.length, answers := c.answers.tail }) := by
  have hl := congrArg List.length hb
  rw [List.length_drop, List.length_append] at hl
  rcases readBits_cases c m.length with ⟨-, -, h⟩ | ⟨h | h, -⟩
  · rw [h, hb]; simp
  · exact absurd h hc
  · omega

/-- The unary prefix counts the zeros before the first 1 and takes that 1 too (R159). -/
theorem readUnary_ok {q n : Nat} (q₀ : Nat) {c : InChannel} {l : List Bool}
    (hc : ∀ b ∈ c.answers.take (q + 1), b = true) (hb : c.bits.drop c.pos = List.replicate q false ++ true :: l)
    (hn : q < n) :
    readUnary n q₀ c = (some (q₀ + q), { c with pos := c.pos + q + 1, answers := c.answers.drop (q + 1) }) := by
  induction q generalizing n q₀ c with
  | zero =>
    obtain ⟨n, rfl⟩ := Nat.exists_eq_add_of_le' hn
    simp [readUnary, readBit_ok (head_ne_false hc) (by simpa using hb)]
  | succ q ih =>
    obtain ⟨n, rfl⟩ := Nat.exists_eq_add_of_le' (show 1 ≤ n by omega)
    have hb' : c.bits.drop c.pos = false :: (List.replicate q false ++ true :: l) := by
      simpa [List.replicate_succ] using hb
    simp only [readUnary, readBit_ok (head_ne_false hc) hb']
    rw [ih (q₀ + 1)]
    · simp only [List.drop_tail, Prod.mk.injEq, Option.some.injEq, InChannel.mk.injEq, true_and]
      exact ⟨by omega, by omega, trivial⟩
    · have := answers_drop (a := 1) (b := q + 1) (Nat.add_comm 1 (q + 1) ▸ hc)
      simpa using this
    · show c.bits.drop (c.pos + 1) = _
      rw [← List.drop_drop, hb']; rfl
    · omega

/-- The unary prefix whose read after `q` zeros fails, by the environment's choice or at the channel's end: the zeros stay
consumed and the failing call moves nothing (R65, R165). -/
theorem readUnary_fails {q n : Nat} (q₀ : Nat) {c : InChannel} {l : List Bool}
    (hc : ∀ b ∈ c.answers.take q, b = true) (hb : c.bits.drop c.pos = List.replicate q false ++ l)
    (hn : c.bits.length - c.pos ≤ n) (hf : c.answers[q]? = some false ∨ l = []) :
    readUnary n q₀ c = (none, { c with pos := c.pos + q, answers := c.answers.drop (q + 1) }) := by
  have hl := congrArg List.length hb
  simp only [List.length_drop, List.length_append, List.length_replicate] at hl
  induction q generalizing n q₀ c with
  | zero =>
    have h : c.readBit = (none, { c with answers := c.answers.tail }) := by
      rcases readBit_cases c with ⟨b, h1, h2, -⟩ | ⟨-, h⟩
      · rcases hf with hf | rfl
        · exact absurd (List.head?_eq_getElem? ▸ hf) h1
        · rw [List.getElem?_eq_none (by simp at hl; omega)] at h2; cases h2
      · exact h
    cases n <;> simp [readUnary, h]
  | succ q ih =>
    obtain ⟨n, rfl⟩ := Nat.exists_eq_add_of_le' (show 1 ≤ n by omega)
    have hb' : c.bits.drop c.pos = false :: (List.replicate q false ++ l) := by
      simpa [List.replicate_succ] using hb
    simp only [readUnary, readBit_ok (head_ne_false hc) hb']
    rw [ih (q₀ + 1)]
    · simp only [List.drop_tail, Prod.mk.injEq, InChannel.mk.injEq, true_and]
      exact ⟨by omega, trivial⟩
    · simpa using answers_drop (a := 1) (b := q) (Nat.add_comm 1 q ▸ hc)
    · show c.bits.drop (c.pos + 1) = _
      rw [← List.drop_drop, hb']; rfl
    · simp only; omega
    · simpa using hf
    · simp only; omega

end Sys2Proof.Machine
end

