-- ==== Sys2Proof/Laws/Inverse.lean ====
section
/-! SUPPORT. The inverse step (41_mtf_inverse.md R122): the shift entry by entry, and the step as a move to front. -/

namespace Sys2Proof.Machine

/-- The shift moves the entries 0 to `n - 1` one place on and leaves the others. -/
theorem read_shiftBack {n : Nat} (hn : n < 256) (idx : Table 8 Byte) (j : Byte) :
    (shiftBack n idx).read j = if 0 < j.toNat ∧ j.toNat ≤ n then idx.read (j - 1) else idx.read j := by
  induction n generalizing idx with
  | zero => rw [if_neg (by omega)]; rfl
  | succ n ih =>
    rw [shiftBack, ih (by omega), Table.read_write, Table.read_write]
    have hj := j.isLt
    have hsub : 0 < j.toNat → (j - 1).toNat = j.toNat - 1 := fun h => by
      rw [BitVec.toNat_sub]; simp; omega
    have e1 : ∀ x : Byte, BitVec.ofNat 8 (n + 1) = x ↔ x.toNat = n + 1 := fun x => by
      rw [← BitVec.toNat_inj, BitVec.toNat_ofNat]; omega
    by_cases h : 0 < j.toNat ∧ j.toNat ≤ n
    · rw [if_pos h, if_neg (by rw [e1, hsub h.1]; omega), if_pos ⟨h.1, by omega⟩]
    · rw [if_neg h]
      by_cases h' : j.toNat = n + 1
      · rw [if_pos ((e1 j).mpr h'), if_pos (by omega)]
        congr 1
        apply BitVec.eq_of_toNat_eq
        rw [hsub (by omega), BitVec.toNat_ofNat]
        omega
      · rw [if_neg (by rw [e1]; exact h'), if_neg (by omega)]

/-- The inverse step entry by entry (R122). -/
theorem read_istep (idx : Table 8 Byte) (r j : Byte) :
    (istep idx r).2.read j =
      if j.toNat = 0 then idx.read r
      else if j.toNat ≤ r.toNat then idx.read (j - 1) else idx.read j := by
  have h0 : ∀ x : Byte, x.toNat = 0 ↔ 0 = x := fun x => by
    rw [← BitVec.toNat_inj]; exact eq_comm
  unfold istep
  by_cases hr : r = 0
  · subst hr
    simp only [if_true]
    by_cases hj : j.toNat = 0
    · rw [if_pos hj, ← (h0 j).mp hj]
    · rw [if_neg hj, if_neg (show ¬ j.toNat ≤ (0 : Byte).toNat from fun h => hj (Nat.le_zero.mp h))]
  · simp only [if_neg hr]
    rw [Table.read_write, read_shiftBack r.isLt]
    by_cases hj : j.toNat = 0
    · rw [if_pos ((h0 j).mp hj), if_pos hj]
    · rw [if_neg fun e => hj ((h0 j).mpr e), if_neg hj]
      by_cases hjr : j.toNat ≤ r.toNat
      · rw [if_pos ⟨by omega, hjr⟩, if_pos hjr]
      · rw [if_neg fun h => hjr h.2, if_neg hjr]

theorem tableList_length (idx : Table 8 Byte) : (tableList idx).length = 256 := by simp [tableList]

theorem tableList_get (idx : Table 8 Byte) (j : Byte) : (tableList idx)[j.toNat]? = some (idx.read j) := by
  simp [tableList, List.getElem?_range j.isLt]

theorem tableList_getD (idx : Table 8 Byte) (j : Byte) : (tableList idx).getD j.toNat 0 = idx.read j := by
  rw [List.getD_eq_getElem?_getD, tableList_get]; rfl

/-- A permutation of the symbols has no repeat. -/
theorem tableList_nodup {idx : Table 8 Byte} (h : IdxPermutation idx) : (tableList idx).Nodup :=
  List.Nodup.map_on (fun x hx y hy e => by
    have e := congrArg BitVec.toNat (h _ _ e)
    rw [List.mem_range] at hx hy
    simp only [BitVec.toNat_ofNat] at e
    omega) List.nodup_range

/-- A table whose list has no repeat is a permutation. -/
theorem idxPermutation_of_nodup {idx : Table 8 Byte} (h : (tableList idx).Nodup) : IdxPermutation idx := fun i j e => by
  have hi := tableList_get idx i
  have hj := tableList_get idx j
  rw [e] at hi
  have := (List.getElem?_inj (by rw [tableList_length]; exact i.isLt) h).mp (hi.trans hj.symm)
  exact BitVec.eq_of_toNat_eq this

/-- The inverse step is a move to front of the symbol at the rank (R122, R125). -/
theorem tableList_istep {idx : Table 8 Byte} (h : IdxPermutation idx) (r : Byte) :
    tableList (istep idx r).2 = moveToFront (tableList idx) (idx.read r) := by
  have hlt := r.isLt
  have hsplit : tableList idx = (tableList idx).take r.toNat ++ idx.read r :: (tableList idx).drop (r.toNat + 1) := by
    have hg := tableList_get idx r
    obtain ⟨hl, hg⟩ := List.getElem?_eq_some_iff.mp hg
    rw [← hg, List.getElem_cons_drop, List.take_append_drop]
  have hnot : idx.read r ∉ (tableList idx).take r.toNat := by
    have hn := tableList_nodup h
    rw [hsplit] at hn
    exact fun hm => (List.nodup_append.mp hn).2.2 _ hm _ (by simp) rfl
  have herase : (tableList idx).erase (idx.read r)
      = (tableList idx).take r.toNat ++ (tableList idx).drop (r.toNat + 1) := by
    conv_lhs => rw [hsplit]
    rw [List.erase_append_right _ hnot, List.erase_cons_head]
  rw [moveToFront, herase]
  have htake : ((tableList idx).take r.toNat).length = r.toNat := by
    rw [List.length_take, tableList_length]; omega
  refine List.ext_getElem? fun n => ?_
  by_cases hn : n < 256
  · have e := tableList_get (istep idx r).2 (BitVec.ofNat 8 n)
    rw [BitVec.toNat_ofNat, Nat.mod_eq_of_lt hn] at e
    rw [e, read_istep, BitVec.toNat_ofNat, Nat.mod_eq_of_lt hn]
    cases n with
    | zero => simp
    | succ n =>
      rw [if_neg (by omega), List.getElem?_cons_succ]
      have hs : ∀ m, m < 256 → (tableList idx)[m]? = some (idx.read (BitVec.ofNat 8 m)) := fun m hm => by
        have := tableList_get idx (BitVec.ofNat 8 m)
        rwa [BitVec.toNat_ofNat, Nat.mod_eq_of_lt hm] at this
      by_cases hle : n + 1 ≤ r.toNat
      · rw [if_pos hle, List.getElem?_append_left (by omega), List.getElem?_take_of_lt (by omega), hs n (by omega)]
        congr 2
        apply BitVec.eq_of_toNat_eq
        rw [BitVec.toNat_sub]
        simp
        omega
      · rw [if_neg hle, List.getElem?_append_right (by omega), htake, List.getElem?_drop,
          show r.toNat + 1 + (n - r.toNat) = n + 1 by omega, hs _ hn]
  · rw [List.getElem?_eq_none (by rw [tableList_length]; omega), List.getElem?_eq_none]
    simp only [List.length_cons, List.length_append, htake, List.length_drop, tableList_length]
    omega

/-- The inverse step keeps a permutation (R124). -/
theorem istep_permutation {idx : Table 8 Byte} (h : IdxPermutation idx) (r : Byte) :
    IdxPermutation (istep idx r).2 := by
  refine idxPermutation_of_nodup ?_
  rw [tableList_istep h, moveToFront]
  have hm : idx.read r ∈ tableList idx := List.mem_of_getElem? (tableList_get idx r)
  exact (List.perm_cons_erase hm).nodup_iff.mp (tableList_nodup h)

theorem identityIdx_read (j : Byte) : identityIdx.read j = j := by simp [identityIdx]

theorem identityIdx_permutation : IdxPermutation identityIdx := fun i j h => by
  rwa [identityIdx_read, identityIdx_read] at h

end Sys2Proof.Machine
end

