-- ==== Sys2Proof/Laws/Memory.lean ====
section
/-! SUPPORT. The laws of `BUF`: a read after a write, and that a write keeps the canonical form. -/

namespace Sys2Proof.Machine

theorem Memory.wf_nil : Memory.wf [] := by simp [Memory.wf]

/-- In a list of cells whose indices all exceed `a`, the index `a` is not listed. -/
theorem Memory.readByte_of_lt {m : Memory} {a : Nat} (h : ∀ c ∈ m, a < c.1) :
    m.readByte a = Config.unlistedByte := by
  induction m with
  | nil => rfl
  | cons c m ih =>
    have hc := h c (by simp)
    simp only [Memory.readByte]
    rw [if_neg (by omega), ih fun d hd => h d (by simp [hd])]

/-- Putting a cell for `a` before cells beyond `a` makes `a` read as its byte and changes no other index. -/
theorem Memory.readByte_putCell {m : Memory} {a : Nat} (v : Byte) (h : ∀ c ∈ m, a < c.1) (b : Nat) :
    (Memory.putCell a v m).readByte b = if b = a then v else m.readByte b := by
  unfold Memory.putCell
  split
  · next hv =>
    split
    · next hb => rw [hb, Memory.readByte_of_lt h, hv]
    · rfl
  · rfl

/-- A read after a write: the written index reads as the byte, every other index as before. -/
theorem Memory.readByte_writeByte {m : Memory} (hm : m.Pairwise fun c d => c.1 < d.1) (a b : Nat) (v : Byte) :
    (m.writeByte a v).readByte b = if b = a then v else m.readByte b := by
  induction m with
  | nil => exact Memory.readByte_putCell v (by simp) b
  | cons c m ih =>
    obtain ⟨hc, hm⟩ := List.pairwise_cons.mp hm
    simp only [Memory.writeByte]
    split
    · next hlt =>
      refine Memory.readByte_putCell v (fun d hd => ?_) b
      obtain rfl | hd := List.mem_cons.mp hd
      · exact hlt
      · exact hlt.trans (hc d hd)
    · split
      · next heq =>
        subst heq
        rw [Memory.readByte_putCell v hc b]
        simp only [Memory.readByte]
        split <;> rfl
      · next hne =>
        simp only [Memory.readByte, ih hm]
        split
        · next hb => rw [if_neg (by omega)]
        · rfl

/-- Every index of the cells after a write was listed before or is the written one. -/
theorem Memory.mem_writeByte {m : Memory} {a : Nat} {v : Byte} {c : Host.Cell} (h : c ∈ m.writeByte a v) :
    (c = (a, v) ∧ v ≠ Config.unlistedByte) ∨ c ∈ m := by
  have hput : ∀ {l : Memory}, c ∈ Memory.putCell a v l → (c = (a, v) ∧ v ≠ Config.unlistedByte) ∨ c ∈ l := by
    intro l hc
    unfold Memory.putCell at hc
    split at hc
    · exact .inr hc
    · next hv => exact (List.mem_cons.mp hc).imp (fun h => ⟨h, hv⟩) id
  induction m with
  | nil => exact hput h
  | cons d m ih =>
    simp only [Memory.writeByte] at h
    split at h
    · exact hput h
    · split at h
      · exact (hput h).imp id (List.mem_cons_of_mem d)
      · obtain rfl | h := List.mem_cons.mp h
        · exact .inr (by simp)
        · exact (ih h).imp id (List.mem_cons_of_mem d)

/-- A write at an index of the buffer space keeps the canonical form. -/
theorem Memory.wf_writeByte {m : Memory} (hm : m.wf) {a : Nat} (ha : a < Config.bufSize) (v : Byte) :
    (m.writeByte a v).wf := by
  refine ⟨?_, fun c hc => ?_⟩
  · obtain ⟨hm, -⟩ := hm
    induction m with
    | nil =>
      simp only [Memory.writeByte, Memory.putCell]
      split <;> simp
    | cons d m ih =>
      obtain ⟨hd, hm'⟩ := List.pairwise_cons.mp hm
      have hput : ∀ {l : Memory}, l.Pairwise (fun c d => c.1 < d.1) → (∀ c ∈ l, a < c.1) →
          (Memory.putCell a v l).Pairwise fun c d => c.1 < d.1 := by
        intro l hl hal
        unfold Memory.putCell
        split
        · exact hl
        · exact List.pairwise_cons.mpr ⟨hal, hl⟩
      simp only [Memory.writeByte]
      split
      · next hlt =>
        refine hput hm fun c hc => ?_
        obtain rfl | hc := List.mem_cons.mp hc
        · exact hlt
        · exact hlt.trans (hd c hc)
      · split
        · next heq => exact hput hm' (heq ▸ hd)
        · refine List.pairwise_cons.mpr ⟨fun c hc => ?_, ih hm'⟩
          obtain ⟨rfl, -⟩ | hc := Memory.mem_writeByte hc
          · simp only; omega
          · exact hd c hc
  · obtain ⟨rfl, hv⟩ | hc := Memory.mem_writeByte hc
    · exact ⟨ha, hv⟩
    · exact hm.2 c hc

end Sys2Proof.Machine
end

