-- ==== Sys2Proof/Laws/Loops.lean ====
section
/-! SUPPORT. The element loops of the block commands (40_mtf_forward.md R115, 41_mtf_inverse.md R126), whatever the rank
structure or the inverse table is: which bytes they write, that the buffer keeps its canonical form, and that a loop
over fewer elements is a first part of a loop over more. -/

namespace Sys2Proof.Machine

/-- A forward step that succeeds leaves its symbol at the front (R97, R108). -/
theorem fstep_prevSym {r r' : RankStructure} {v rank : Byte} (h : fstep r v = some (rank, r')) : r'.prevSym = v := by
  unfold fstep at h
  split at h
  · next hv => obtain ⟨-, rfl⟩ : 0 = rank ∧ r = r' := by simpa using h
               exact hv.symm
  · split at h
    · next hp =>
      obtain ⟨-, rfl⟩ := Prod.mk.inj (Option.some.inj h)
      unfold promote at hp
      repeat (split at hp; · exact absurd hp (by simp))
      rw [← Option.some.inj hp]
    · exact absurd h (by simp)

/-- The forward loop writes only its own elements and keeps the canonical form (R115). -/
theorem fwdLoop_frame (n i : Nat) (r : RankStructure) {m : Memory} (hm : m.wf) (hi : i + n ≤ Config.bufSize) :
    (fwdLoop n i r m).2.2.wf ∧
      ∀ a, a < i ∨ i + n ≤ a → (fwdLoop n i r m).2.2.readByte a = m.readByte a := by
  induction n generalizing i r m with
  | zero => exact ⟨hm, fun _ _ => rfl⟩
  | succ n ih =>
    rw [fwdLoop]
    split
    · exact ⟨hm, fun _ _ => rfl⟩
    · next rank r' _ =>
      obtain ⟨h1, h2⟩ := ih (i + 1) r' (Memory.wf_writeByte hm (show i < Config.bufSize by omega) rank) (by omega)
      exact ⟨h1, fun a ha => by rw [h2 a (by omega), Memory.readByte_writeByte hm.1, if_neg (by omega)]⟩

/-- After `k` elements the forward loop has written what the whole loop leaves in them. -/
theorem fwdLoop_prefix {k n : Nat} (hk : k ≤ n) (i : Nat) (r : RankStructure) {m : Memory} (hm : m.wf)
    (hi : i + n ≤ Config.bufSize) (a : Nat) (ha : a < i + k) :
    (fwdLoop k i r m).2.2.readByte a = (fwdLoop n i r m).2.2.readByte a := by
  induction k generalizing n i r m with
  | zero => rw [(fwdLoop_frame n i r hm hi).2 a (by omega)]; rfl
  | succ k ih =>
    obtain ⟨n, rfl⟩ := Nat.exists_eq_add_of_le' (show 1 ≤ n by omega)
    rw [fwdLoop, fwdLoop]
    split
    · rfl
    · next rank r' _ =>
      exact ih (by omega) (i + 1) r' (Memory.wf_writeByte hm (show i < Config.bufSize by omega) rank) (by omega)
        (by omega)

/-- The inverse loop writes only its own elements and keeps the canonical form (R126). -/
theorem invLoop_frame (n i : Nat) (idx : Table 8 Byte) {m : Memory} (hm : m.wf) (hi : i + n ≤ Config.bufSize) :
    (invLoop n i idx m).2.wf ∧ ∀ a, a < i ∨ i + n ≤ a → (invLoop n i idx m).2.readByte a = m.readByte a := by
  induction n generalizing i idx m with
  | zero => exact ⟨hm, fun _ _ => rfl⟩
  | succ n ih =>
    rw [invLoop]
    obtain ⟨h1, h2⟩ := ih (i + 1) (istep idx (m.readByte i)).2
      (Memory.wf_writeByte hm (show i < Config.bufSize by omega) (istep idx (m.readByte i)).1) (by omega)
    exact ⟨h1, fun a ha => by rw [h2 a (by omega), Memory.readByte_writeByte hm.1, if_neg (by omega)]⟩

/-- After `k` elements the inverse loop has written what the whole loop leaves in them. -/
theorem invLoop_prefix {k n : Nat} (hk : k ≤ n) (i : Nat) (idx : Table 8 Byte) {m : Memory} (hm : m.wf)
    (hi : i + n ≤ Config.bufSize) (a : Nat) (ha : a < i + k) :
    (invLoop k i idx m).2.readByte a = (invLoop n i idx m).2.readByte a := by
  induction k generalizing n i idx m with
  | zero => rw [(invLoop_frame n i idx hm hi).2 a (by omega)]; rfl
  | succ k ih =>
    obtain ⟨n, rfl⟩ := Nat.exists_eq_add_of_le' (show 1 ≤ n by omega)
    rw [invLoop, invLoop]
    exact ih (by omega) (i + 1) _ (Memory.wf_writeByte hm (show i < Config.bufSize by omega) _) (by omega) (by omega)

end Sys2Proof.Machine
end

