-- ==== Sys2Proof/Laws/Operands.lean ====
section
/-! SUPPORT. The operand forms as numbers: legal `logBase` values, the low bits of a magnitude, the traversal length. -/

namespace Sys2Proof.Machine

theorem legalLogBase_iff (l : Byte) : legalLogBase l = true ↔ 1 ≤ l.toNat ∧ l.toNat ≤ 7 := by
  rw [legalLogBase, Bool.and_eq_true, decide_eq_true_eq, decide_eq_true_eq]
  exact Iff.rfl

theorem legalLogBase_eq_false (l : Byte) : legalLogBase l = false ↔ l.toNat = 0 ∨ 8 ≤ l.toNat := by
  rw [← Bool.not_eq_true, legalLogBase_iff]
  omega

/-- A legal `logBase` fits the three bits of the register (R136, R156). -/
theorem constructed_logBase (signed : Bool) {l : Byte} (h : legalLogBase l = true) :
    (constructed signed l).logBase.toNat = l.toNat := by
  obtain ⟨-, h⟩ := (legalLogBase_iff l).mp h
  show (l.setWidth 3).toNat = l.toNat
  rw [BitVec.toNat_setWidth]
  omega

theorem zext24_trunc8 (n : Nat) : zext24 (trunc8 n) = BitVec.ofNat 24 (n % 256) := by
  apply BitVec.eq_of_toNat_eq
  simp [zext24, trunc8]

theorem zext24_neg8_trunc8 (n : Nat) : zext24 (neg8 (trunc8 n)) = BitVec.ofNat 24 ((256 - n % 256) % 256) := by
  apply BitVec.eq_of_toNat_eq
  simp [zext24, trunc8, neg8]

/-- The traversal length is `len`, or `SIZE` when that is not 0 (R116); a legal one does not exceed `len`. -/
theorem traversal_cases (size len : Data) :
    (size = 0 ∧ traversal size len = len ∧ ¬traversal size len > len) ∨
    (size ≠ 0 ∧ traversal size len = size ∧ (traversal size len > len ↔ len.toNat < size.toNat)) := by
  by_cases h : size = 0
  · exact .inl ⟨h, by rw [traversal, if_pos h], by rw [traversal, if_pos h]; simp⟩
  · exact .inr ⟨h, by rw [traversal, if_neg h], by rw [traversal, if_neg h]; rfl⟩

end Sys2Proof.Machine
end

