-- ==== Sys2Proof/Laws/PerInstr.lean ====
section
/-! SUPPORT. The statements made per command: the word of a command matches the command's own row of the opcode table
(30_encoding.md R73). -/

namespace Sys2Proof.Laws.RowMatch

open Sys2Proof

/-- R73: the word of the command selects its row, `w & mask = match`. -/
def Statement (i : Instr) : Prop := encode i &&& i.mask = i.matchBits

/-- A word and a mask that covers the opcode, field by field. -/
theorem word_and (op : Byte) (arg mask : Data) :
    (op ++ arg : Word) &&& ((0xFF : Byte) ++ mask : Word) = op ++ (arg &&& mask) := by
  refine (BitVec.and_append (x₁ := op) (x₂ := 0xFF) (y₁ := arg) (y₂ := mask)).trans ?_
  rw [show op &&& 0xFF = op from BitVec.and_allOnes]

/-- An operand of a row whose mask covers the bits that the operand leaves zero. -/
theorem byte_and (b : Byte) : (b.setWidth 24 : Data) &&& 0xFFFF00 = 0 := by
  revert b; decide +kernel

theorem config_and (signed : Bool) (b : Byte) :
    ((BitVec.ofBool signed ++ b).setWidth 24 : Data) &&& 0xFFFE00 = 0 := by
  revert signed b; decide +kernel

theorem nop : Statement .nop := by unfold Statement; decide
theorem mtfSetsize (size : Data) : Statement (.mtfSetsize size) := by
  rw [Statement, encode, Instr.mask, show (0xFF000000 : Word) = (0xFF : Byte) ++ (0 : Data) by decide, word_and]
  simp [Instr.operand, Instr.matchBits]
theorem mtfFwd (len : Data) : Statement (.mtfFwd len) := by
  rw [Statement, encode, Instr.mask, show (0xFF000000 : Word) = (0xFF : Byte) ++ (0 : Data) by decide, word_and]
  simp [Instr.operand, Instr.matchBits]
theorem mtfInv (len : Data) : Statement (.mtfInv len) := by
  rw [Statement, encode, Instr.mask, show (0xFF000000 : Word) = (0xFF : Byte) ++ (0 : Data) by decide, word_and]
  simp [Instr.operand, Instr.matchBits]
theorem mtfFbegin : Statement .mtfFbegin := by unfold Statement; decide
theorem mtfFsym (sym : Byte) : Statement (.mtfFsym sym) := by
  rw [Statement, encode, Instr.mask, show (0xFFFFFF00 : Word) = (0xFF : Byte) ++ (0xFFFF00 : Data) by decide, word_and,
    Instr.operand, byte_and, Instr.matchBits]
theorem mtfIbegin : Statement .mtfIbegin := by unfold Statement; decide
theorem mtfIsym (rank : Byte) : Statement (.mtfIsym rank) := by
  rw [Statement, encode, Instr.mask, show (0xFFFFFF00 : Word) = (0xFF : Byte) ++ (0xFFFF00 : Data) by decide, word_and,
    Instr.operand, byte_and, Instr.matchBits]
theorem rgeCfg (signed : Bool) (logBase : Byte) : Statement (.rgeCfg signed logBase) := by
  rw [Statement, encode, Instr.mask, show (0xFFFFFE00 : Word) = (0xFF : Byte) ++ (0xFFFE00 : Data) by decide, word_and,
    Instr.operand, config_and, Instr.matchBits]
theorem rgeEnc (val : Byte) : Statement (.rgeEnc val) := by
  rw [Statement, encode, Instr.mask, show (0xFFFFFF00 : Word) = (0xFF : Byte) ++ (0xFFFF00 : Data) by decide, word_and,
    Instr.operand, byte_and, Instr.matchBits]
theorem rgdCfg (signed : Bool) (logBase : Byte) : Statement (.rgdCfg signed logBase) := by
  rw [Statement, encode, Instr.mask, show (0xFFFFFE00 : Word) = (0xFF : Byte) ++ (0xFFFE00 : Data) by decide, word_and,
    Instr.operand, config_and, Instr.matchBits]
theorem rgdDec : Statement .rgdDec := by unfold Statement; decide
theorem rdcsr (csr : Byte) : Statement (.rdcsr csr) := by
  rw [Statement, encode, Instr.mask, show (0xFFFFFF00 : Word) = (0xFF : Byte) ++ (0xFFFF00 : Data) by decide, word_and,
    Instr.operand, byte_and, Instr.matchBits]

end Sys2Proof.Laws.RowMatch
end

