-- ==== Sys2Proof/Laws/State.lean ====
section
/-! SUPPORT. What each shared operation leaves in each field of the state: one lemma per field per operation, so that no
proof unfolds a record update. -/

namespace Sys2Proof.Machine

variable (s : State)

@[simp] theorem State.respond_rank (c : Code) (data : Data) : (s.respond c data).rank = s.rank := rfl
@[simp] theorem State.respond_idx (c : Code) (data : Data) : (s.respond c data).idx = s.idx := rfl
@[simp] theorem State.respond_size (c : Code) (data : Data) : (s.respond c data).size = s.size := rfl
@[simp] theorem State.respond_enc (c : Code) (data : Data) : (s.respond c data).enc = s.enc := rfl
@[simp] theorem State.respond_dec (c : Code) (data : Data) : (s.respond c data).dec = s.dec := rfl
@[simp] theorem State.respond_status (c : Code) (data : Data) : (s.respond c data).status = s.status := rfl
@[simp] theorem State.respond_faultFlag (c : Code) (data : Data) : (s.respond c data).faultFlag = s.faultFlag := rfl
@[simp] theorem State.respond_arg (c : Code) (data : Data) : (s.respond c data).arg = s.arg := rfl
@[simp] theorem State.respond_res (c : Code) (data : Data) : (s.respond c data).res = data := rfl
@[simp] theorem State.respond_buf (c : Code) (data : Data) : (s.respond c data).buf = s.buf := rfl
@[simp] theorem State.respond_ech (c : Code) (data : Data) : (s.respond c data).ech = s.ech := rfl
@[simp] theorem State.respond_dch (c : Code) (data : Data) : (s.respond c data).dch = s.dch := rfl
@[simp] theorem State.respond_port (c : Code) (data : Data) : (s.respond c data).port = s.port := rfl
@[simp] theorem State.respond_responses (c : Code) (data : Data) : (s.respond c data).responses = s.responses ++ [responseWord c data] := rfl

@[simp] theorem State.complete_rank (data : Data) : (s.complete data).rank = s.rank := rfl
@[simp] theorem State.complete_idx (data : Data) : (s.complete data).idx = s.idx := rfl
@[simp] theorem State.complete_size (data : Data) : (s.complete data).size = s.size := rfl
@[simp] theorem State.complete_enc (data : Data) : (s.complete data).enc = s.enc := rfl
@[simp] theorem State.complete_dec (data : Data) : (s.complete data).dec = s.dec := rfl
@[simp] theorem State.complete_status (data : Data) : (s.complete data).status = codeBits .ok := rfl
@[simp] theorem State.complete_faultFlag (data : Data) : (s.complete data).faultFlag = s.faultFlag := rfl
@[simp] theorem State.complete_arg (data : Data) : (s.complete data).arg = s.arg := rfl
@[simp] theorem State.complete_res (data : Data) : (s.complete data).res = data := rfl
@[simp] theorem State.complete_buf (data : Data) : (s.complete data).buf = s.buf := rfl
@[simp] theorem State.complete_ech (data : Data) : (s.complete data).ech = s.ech := rfl
@[simp] theorem State.complete_dch (data : Data) : (s.complete data).dch = s.dch := rfl
@[simp] theorem State.complete_port (data : Data) : (s.complete data).port = s.port := rfl
@[simp] theorem State.complete_responses (data : Data) : (s.complete data).responses = s.responses ++ [responseWord .ok data] := rfl

@[simp] theorem State.raise_rank (c : Code) : (s.raise c).rank = s.rank := rfl
@[simp] theorem State.raise_idx (c : Code) : (s.raise c).idx = s.idx := rfl
@[simp] theorem State.raise_size (c : Code) : (s.raise c).size = s.size := rfl
@[simp] theorem State.raise_enc (c : Code) : (s.raise c).enc = s.enc := rfl
@[simp] theorem State.raise_dec (c : Code) : (s.raise c).dec = s.dec := rfl
@[simp] theorem State.raise_status (c : Code) : (s.raise c).status = codeBits c := rfl
@[simp] theorem State.raise_faultFlag (c : Code) : (s.raise c).faultFlag = s.faultFlag := rfl
@[simp] theorem State.raise_arg (c : Code) : (s.raise c).arg = s.arg := rfl
@[simp] theorem State.raise_res (c : Code) : (s.raise c).res = 0 := rfl
@[simp] theorem State.raise_buf (c : Code) : (s.raise c).buf = s.buf := rfl
@[simp] theorem State.raise_ech (c : Code) : (s.raise c).ech = s.ech := rfl
@[simp] theorem State.raise_dch (c : Code) : (s.raise c).dch = s.dch := rfl
@[simp] theorem State.raise_port (c : Code) : (s.raise c).port = s.port := rfl
@[simp] theorem State.raise_responses (c : Code) : (s.raise c).responses = s.responses ++ [responseWord c 0] := rfl

@[simp] theorem State.raiseInternal_rank : (s.raiseInternal).rank = s.rank := rfl
@[simp] theorem State.raiseInternal_idx : (s.raiseInternal).idx = s.idx := rfl
@[simp] theorem State.raiseInternal_size : (s.raiseInternal).size = s.size := rfl
@[simp] theorem State.raiseInternal_enc : (s.raiseInternal).enc = s.enc := rfl
@[simp] theorem State.raiseInternal_dec : (s.raiseInternal).dec = s.dec := rfl
@[simp] theorem State.raiseInternal_status : (s.raiseInternal).status = codeBits .internal := rfl
@[simp] theorem State.raiseInternal_faultFlag : (s.raiseInternal).faultFlag = true := rfl
@[simp] theorem State.raiseInternal_arg : (s.raiseInternal).arg = s.arg := rfl
@[simp] theorem State.raiseInternal_res : (s.raiseInternal).res = 0 := rfl
@[simp] theorem State.raiseInternal_buf : (s.raiseInternal).buf = s.buf := rfl
@[simp] theorem State.raiseInternal_ech : (s.raiseInternal).ech = s.ech := rfl
@[simp] theorem State.raiseInternal_dch : (s.raiseInternal).dch = s.dch := rfl
@[simp] theorem State.raiseInternal_port : (s.raiseInternal).port = s.port := rfl
@[simp] theorem State.raiseInternal_responses : (s.raiseInternal).responses = s.responses ++ [responseWord .internal 0] := rfl

@[simp] theorem State.accept_rank (w : Word) (rest : List PortEvent) : (s.accept w rest).rank = s.rank := rfl
@[simp] theorem State.accept_idx (w : Word) (rest : List PortEvent) : (s.accept w rest).idx = s.idx := rfl
@[simp] theorem State.accept_size (w : Word) (rest : List PortEvent) : (s.accept w rest).size = s.size := rfl
@[simp] theorem State.accept_enc (w : Word) (rest : List PortEvent) : (s.accept w rest).enc = s.enc := rfl
@[simp] theorem State.accept_dec (w : Word) (rest : List PortEvent) : (s.accept w rest).dec = s.dec := rfl
@[simp] theorem State.accept_status (w : Word) (rest : List PortEvent) : (s.accept w rest).status = s.status := rfl
@[simp] theorem State.accept_faultFlag (w : Word) (rest : List PortEvent) : (s.accept w rest).faultFlag = s.faultFlag := rfl
@[simp] theorem State.accept_arg (w : Word) (rest : List PortEvent) : (s.accept w rest).arg = argField w := rfl
@[simp] theorem State.accept_res (w : Word) (rest : List PortEvent) : (s.accept w rest).res = s.res := rfl
@[simp] theorem State.accept_buf (w : Word) (rest : List PortEvent) : (s.accept w rest).buf = s.buf := rfl
@[simp] theorem State.accept_ech (w : Word) (rest : List PortEvent) : (s.accept w rest).ech = s.ech := rfl
@[simp] theorem State.accept_dch (w : Word) (rest : List PortEvent) : (s.accept w rest).dch = s.dch := rfl
@[simp] theorem State.accept_port (w : Word) (rest : List PortEvent) : (s.accept w rest).port = rest := rfl
@[simp] theorem State.accept_responses (w : Word) (rest : List PortEvent) : (s.accept w rest).responses = s.responses := rfl

@[simp] theorem State.applyReset_rank : (s.applyReset).rank = State.reset.rank := rfl
@[simp] theorem State.applyReset_idx : (s.applyReset).idx = State.reset.idx := rfl
@[simp] theorem State.applyReset_size : (s.applyReset).size = State.reset.size := rfl
@[simp] theorem State.applyReset_enc : (s.applyReset).enc = State.reset.enc := rfl
@[simp] theorem State.applyReset_dec : (s.applyReset).dec = State.reset.dec := rfl
@[simp] theorem State.applyReset_status : (s.applyReset).status = State.reset.status := rfl
@[simp] theorem State.applyReset_faultFlag : (s.applyReset).faultFlag = State.reset.faultFlag := rfl
@[simp] theorem State.applyReset_arg : (s.applyReset).arg = State.reset.arg := rfl
@[simp] theorem State.applyReset_res : (s.applyReset).res = State.reset.res := rfl
@[simp] theorem State.applyReset_buf : (s.applyReset).buf = s.buf := rfl
@[simp] theorem State.applyReset_ech : (s.applyReset).ech = s.ech := rfl
@[simp] theorem State.applyReset_dch : (s.applyReset).dch = s.dch := rfl
@[simp] theorem State.applyReset_port : (s.applyReset).port = s.port := rfl
@[simp] theorem State.applyReset_responses : (s.applyReset).responses = s.responses := rfl

@[simp] theorem State.fillBuf_rank (a : Data) (v : Byte) : (s.fillBuf a v).rank = s.rank := rfl
@[simp] theorem State.fillBuf_idx (a : Data) (v : Byte) : (s.fillBuf a v).idx = s.idx := rfl
@[simp] theorem State.fillBuf_size (a : Data) (v : Byte) : (s.fillBuf a v).size = s.size := rfl
@[simp] theorem State.fillBuf_enc (a : Data) (v : Byte) : (s.fillBuf a v).enc = s.enc := rfl
@[simp] theorem State.fillBuf_dec (a : Data) (v : Byte) : (s.fillBuf a v).dec = s.dec := rfl
@[simp] theorem State.fillBuf_status (a : Data) (v : Byte) : (s.fillBuf a v).status = s.status := rfl
@[simp] theorem State.fillBuf_faultFlag (a : Data) (v : Byte) : (s.fillBuf a v).faultFlag = s.faultFlag := rfl
@[simp] theorem State.fillBuf_arg (a : Data) (v : Byte) : (s.fillBuf a v).arg = s.arg := rfl
@[simp] theorem State.fillBuf_res (a : Data) (v : Byte) : (s.fillBuf a v).res = s.res := rfl
@[simp] theorem State.fillBuf_buf (a : Data) (v : Byte) : (s.fillBuf a v).buf = s.buf.writeByte a.toNat v := rfl
@[simp] theorem State.fillBuf_ech (a : Data) (v : Byte) : (s.fillBuf a v).ech = s.ech := rfl
@[simp] theorem State.fillBuf_dch (a : Data) (v : Byte) : (s.fillBuf a v).dch = s.dch := rfl
@[simp] theorem State.fillBuf_port (a : Data) (v : Byte) : (s.fillBuf a v).port = s.port := rfl
@[simp] theorem State.fillBuf_responses (a : Data) (v : Byte) : (s.fillBuf a v).responses = s.responses := rfl

@[simp] theorem State.appendEch_rank (bs : List Bool) : (s.appendEch bs).rank = s.rank := rfl
@[simp] theorem State.appendEch_idx (bs : List Bool) : (s.appendEch bs).idx = s.idx := rfl
@[simp] theorem State.appendEch_size (bs : List Bool) : (s.appendEch bs).size = s.size := rfl
@[simp] theorem State.appendEch_enc (bs : List Bool) : (s.appendEch bs).enc = s.enc := rfl
@[simp] theorem State.appendEch_dec (bs : List Bool) : (s.appendEch bs).dec = s.dec := rfl
@[simp] theorem State.appendEch_status (bs : List Bool) : (s.appendEch bs).status = s.status := rfl
@[simp] theorem State.appendEch_faultFlag (bs : List Bool) : (s.appendEch bs).faultFlag = s.faultFlag := rfl
@[simp] theorem State.appendEch_arg (bs : List Bool) : (s.appendEch bs).arg = s.arg := rfl
@[simp] theorem State.appendEch_res (bs : List Bool) : (s.appendEch bs).res = s.res := rfl
@[simp] theorem State.appendEch_buf (bs : List Bool) : (s.appendEch bs).buf = s.buf := rfl
@[simp] theorem State.appendEch_ech (bs : List Bool) : (s.appendEch bs).ech = { s.ech with bits := s.ech.bits ++ bs } := rfl
@[simp] theorem State.appendEch_dch (bs : List Bool) : (s.appendEch bs).dch = s.dch := rfl
@[simp] theorem State.appendEch_port (bs : List Bool) : (s.appendEch bs).port = s.port := rfl
@[simp] theorem State.appendEch_responses (bs : List Bool) : (s.appendEch bs).responses = s.responses := rfl

@[simp] theorem State.supplyDch_rank (bs : List Bool) : (s.supplyDch bs).rank = s.rank := rfl
@[simp] theorem State.supplyDch_idx (bs : List Bool) : (s.supplyDch bs).idx = s.idx := rfl
@[simp] theorem State.supplyDch_size (bs : List Bool) : (s.supplyDch bs).size = s.size := rfl
@[simp] theorem State.supplyDch_enc (bs : List Bool) : (s.supplyDch bs).enc = s.enc := rfl
@[simp] theorem State.supplyDch_dec (bs : List Bool) : (s.supplyDch bs).dec = s.dec := rfl
@[simp] theorem State.supplyDch_status (bs : List Bool) : (s.supplyDch bs).status = s.status := rfl
@[simp] theorem State.supplyDch_faultFlag (bs : List Bool) : (s.supplyDch bs).faultFlag = s.faultFlag := rfl
@[simp] theorem State.supplyDch_arg (bs : List Bool) : (s.supplyDch bs).arg = s.arg := rfl
@[simp] theorem State.supplyDch_res (bs : List Bool) : (s.supplyDch bs).res = s.res := rfl
@[simp] theorem State.supplyDch_buf (bs : List Bool) : (s.supplyDch bs).buf = s.buf := rfl
@[simp] theorem State.supplyDch_ech (bs : List Bool) : (s.supplyDch bs).ech = s.ech := rfl
@[simp] theorem State.supplyDch_dch (bs : List Bool) : (s.supplyDch bs).dch = { s.dch with bits := s.dch.bits ++ bs } := rfl
@[simp] theorem State.supplyDch_port (bs : List Bool) : (s.supplyDch bs).port = s.port := rfl
@[simp] theorem State.supplyDch_responses (bs : List Bool) : (s.supplyDch bs).responses = s.responses := rfl

@[simp] theorem State.moveDch_rank (pos : Nat) : (s.moveDch pos).rank = s.rank := rfl
@[simp] theorem State.moveDch_idx (pos : Nat) : (s.moveDch pos).idx = s.idx := rfl
@[simp] theorem State.moveDch_size (pos : Nat) : (s.moveDch pos).size = s.size := rfl
@[simp] theorem State.moveDch_enc (pos : Nat) : (s.moveDch pos).enc = s.enc := rfl
@[simp] theorem State.moveDch_dec (pos : Nat) : (s.moveDch pos).dec = s.dec := rfl
@[simp] theorem State.moveDch_status (pos : Nat) : (s.moveDch pos).status = s.status := rfl
@[simp] theorem State.moveDch_faultFlag (pos : Nat) : (s.moveDch pos).faultFlag = s.faultFlag := rfl
@[simp] theorem State.moveDch_arg (pos : Nat) : (s.moveDch pos).arg = s.arg := rfl
@[simp] theorem State.moveDch_res (pos : Nat) : (s.moveDch pos).res = s.res := rfl
@[simp] theorem State.moveDch_buf (pos : Nat) : (s.moveDch pos).buf = s.buf := rfl
@[simp] theorem State.moveDch_ech (pos : Nat) : (s.moveDch pos).ech = s.ech := rfl
@[simp] theorem State.moveDch_dch (pos : Nat) : (s.moveDch pos).dch = { s.dch with pos := pos } := rfl
@[simp] theorem State.moveDch_port (pos : Nat) : (s.moveDch pos).port = s.port := rfl
@[simp] theorem State.moveDch_responses (pos : Nat) : (s.moveDch pos).responses = s.responses := rfl

@[simp] theorem State.answerCalls_rank (ech dch : List Bool) : (s.answerCalls ech dch).rank = s.rank := rfl
@[simp] theorem State.answerCalls_idx (ech dch : List Bool) : (s.answerCalls ech dch).idx = s.idx := rfl
@[simp] theorem State.answerCalls_size (ech dch : List Bool) : (s.answerCalls ech dch).size = s.size := rfl
@[simp] theorem State.answerCalls_enc (ech dch : List Bool) : (s.answerCalls ech dch).enc = s.enc := rfl
@[simp] theorem State.answerCalls_dec (ech dch : List Bool) : (s.answerCalls ech dch).dec = s.dec := rfl
@[simp] theorem State.answerCalls_status (ech dch : List Bool) : (s.answerCalls ech dch).status = s.status := rfl
@[simp] theorem State.answerCalls_faultFlag (ech dch : List Bool) : (s.answerCalls ech dch).faultFlag = s.faultFlag := rfl
@[simp] theorem State.answerCalls_arg (ech dch : List Bool) : (s.answerCalls ech dch).arg = s.arg := rfl
@[simp] theorem State.answerCalls_res (ech dch : List Bool) : (s.answerCalls ech dch).res = s.res := rfl
@[simp] theorem State.answerCalls_buf (ech dch : List Bool) : (s.answerCalls ech dch).buf = s.buf := rfl
@[simp] theorem State.answerCalls_ech (ech dch : List Bool) : (s.answerCalls ech dch).ech = { s.ech with answers := s.ech.answers ++ ech } := rfl
@[simp] theorem State.answerCalls_dch (ech dch : List Bool) : (s.answerCalls ech dch).dch = { s.dch with answers := s.dch.answers ++ dch } := rfl
@[simp] theorem State.answerCalls_port (ech dch : List Bool) : (s.answerCalls ech dch).port = s.port := rfl
@[simp] theorem State.answerCalls_responses (ech dch : List Bool) : (s.answerCalls ech dch).responses = s.responses := rfl

/-- With `FAULT` clear the lock lets the command run. -/
theorem State.unlessLocked_of_clear {s : State} (h : s.faultFlag = false) (t : State) : s.unlessLocked t = t := by
  simp [State.unlessLocked, h]

/-- With `FAULT` set the command is turned away (R199). -/
theorem State.unlessLocked_of_locked {s : State} (h : s.faultFlag = true) (t : State) :
    s.unlessLocked t = s.raise .internal := by
  simp [State.unlessLocked, h]

/-- What the lock can answer: the error entry or the command's own end. -/
theorem State.unlessLocked_cases (s t : State) :
    (s.faultFlag = true ∧ s.unlessLocked t = s.raise .internal) ∨ (s.faultFlag = false ∧ s.unlessLocked t = t) := by
  cases h : s.faultFlag
  · exact .inr ⟨rfl, State.unlessLocked_of_clear h t⟩
  · exact .inl ⟨rfl, State.unlessLocked_of_locked h t⟩

/-- An illegal word with `op = 0x0C` leaves `STATUS` alone; every other one writes it (R75). -/
theorem State.rejectWord_status (s : State) (w : Word) :
    (s.rejectWord w).status = if opField w = 0x0C then s.status else codeBits .illegal := by
  unfold State.rejectWord
  split <;> rfl

/-- An illegal word gets the response `E_ILLEGAL` with data 0 and changes nothing but `STATUS` (R74, R75). -/
theorem State.rejectWord_eq (s : State) (w : Word) :
    s.rejectWord w = { s with
      status := (s.rejectWord w).status, res := 0, responses := s.responses ++ [responseWord .illegal 0] } := by
  unfold State.rejectWord
  split <;> rfl

end Sys2Proof.Machine
end

