-- ==== Sys2Proof/Laws/Step.lean ====
section
/-! SUPPORT. Every command and every step answers a next state: the core has no stop. -/

namespace Sys2Proof.Machine

/-- Every command answers a next state (00_scope.md R8: every command gets a response). -/
theorem exec_next (i : Instr) (s : State) : ∃ t, exec i s = .next t := by
  cases i <;> exact ⟨_, rfl⟩

/-- Every step answers a next state. -/
theorem step_next (s : State) : ∃ t, step s = .next t := by
  unfold step
  split
  · exact ⟨_, rfl⟩
  · split
    · exact exec_next _ _
    · exact ⟨_, rfl⟩
  · exact ⟨_, rfl⟩
  · split <;> exact ⟨_, rfl⟩
  all_goals exact ⟨_, rfl⟩

end Sys2Proof.Machine
end

