-- ==== Sys2Proof/Tests/Slice0.lean ====
section
/-! SUPPORT. The model's own tests: expected values from spec/95_test_vectors.md (V...) and from the encoding tables of
spec/30_encoding.md, and a witness for the hypotheses of every statement. -/

namespace Sys2Proof.Tests

set_option Elab.async false

open Sys2Proof Sys2Proof.Machine Sys2Proof.Claims

/-! ### Helpers -/

/-- The state a command leaves. -/
def after (i : Instr) (s : State) : State :=
  match exec i s with
  | .next t => t
  | _ => s

/-- The response word of the last command. -/
def response (s : State) : Word := s.responses.getLastD 0xFFFFFFFF

/-- A string of bits. -/
def bits (l : List Nat) : List Bool := l.map (· == 1)

/-- The reset state with these bytes in `BUF`, from index 0. -/
def withBuf (l : List Nat) : State :=
  { State.reset with buf := l.zipIdx.foldl (fun m c => m.writeByte c.2 (BitVec.ofNat 8 c.1)) [] }

/-- The reset state with an encoder constructed. -/
def withEnc (signed : Bool) (logBase : BitVec 3) (answers : List Bool) : State :=
  { State.reset with
    enc := { valid := true, signed := signed, logBase := logBase }
    ech := { isPresent := true, bits := [], answers := answers } }

/-- The reset state with a decoder constructed and these bits in `DCH`. -/
def withDec (signed : Bool) (logBase : BitVec 3) (l : List Nat) : State :=
  { State.reset with
    dec := { valid := true, signed := signed, logBase := logBase }
    dch := { isPresent := true, bits := bits l, pos := 0, answers := [], draws := 0 } }

/-- The state in which the environment has made these choices for the next calls of the input channel. -/
def answering (answers : List Bool) (s : State) : State := { s with dch := { s.dch with answers := answers } }

/-- The reset state in which the host's next action is this one. -/
def withPort (e : PortEvent) : State := { State.reset with port := [e] }

/-- The reset state with `FAULT` set. -/
def locked : State := { State.reset with faultFlag := true }

/-- The identity order in buckets of these lengths. -/
def partition (lens : List Nat) : RankStructure :=
  let offset := fun k => (lens.take k).sum
  { next := chainNext
    prev := chainPrev
    bkt := Table.tabulate fun v =>
      BitVec.ofNat 4 ((List.range 15).filter fun k => decide (offset (k + 1) ≤ v.toNat)).length
    head := Table.tabulate fun k => some (BitVec.ofNat 8 (offset k.toNat))
    len := Table.tabulate fun k => BitVec.ofNat 7 (lens.getD k.toNat 0)
    prevSym := 0 }

/-- V18: the identity order, one step after a rebalance. -/
def early : RankStructure := partition [2, 17, 17, 17, 17, 17, 17, 17, 17, 17, 17, 17, 17, 17, 17, 16]

/-- The lengths of V24, on the identity order. -/
def late : RankStructure := partition [64, 1, 1, 1, 2, 17, 17, 17, 17, 17, 17, 17, 17, 17, 17, 17]

theorem early_wf : early.WF ∧ early.order = identityChain :=
  wf_of_identity_partition rfl rfl (by decide +kernel) (by decide +kernel) rfl (by decide +kernel) (by decide +kernel)

theorem early_quiescent : early.Quiescent := ⟨by decide +kernel, by decide +kernel, by decide +kernel⟩

theorem late_wf : late.WF ∧ late.order = identityChain :=
  wf_of_identity_partition rfl rfl (by decide +kernel) (by decide +kernel) rfl (by decide +kernel) (by decide +kernel)

theorem late_quiescent : late.Quiescent := ⟨by decide +kernel, by decide +kernel, by decide +kernel⟩

/-- A state of the identity order whose rank structure is not the reset one. -/
def lateState : State := { State.reset with rank := late }

/-- The canonical state with symbol 65 recorded in the wrong bucket. -/
def broken : State :=
  { State.reset with rank := { RankStructure.canonical with bkt := RankStructure.canonical.bkt.write 65 9 } }

/-! ### Well-formedness -/

theorem test_wf_accepts_csr : (Instr.rdcsr 3).wellFormed = true := by decide
theorem test_wf_refuses_csr : (Instr.rdcsr 4).wellFormed = false := by decide

/-! ### Decoding, word by word (R70, R71, R73, R83) -/

theorem test_decode_nop : decode 0b00000000000000000000000000000000 = .ok .nop := by decide
theorem test_decode_setsize : decode 0b00000001100000000000000100000010 = .ok (.mtfSetsize 0x800102) := by decide
theorem test_decode_fwd : decode 0b00000010000000000000000000000100 = .ok (.mtfFwd 4) := by decide
theorem test_decode_inv : decode 0b00000011111111111111111111111110 = .ok (.mtfInv 0xFFFFFE) := by decide
theorem test_decode_fbegin : decode 0b00000100000000000000000000000000 = .ok .mtfFbegin := by decide
theorem test_decode_fsym : decode 0b00000101000000000000000001000001 = .ok (.mtfFsym 65) := by decide
theorem test_decode_ibegin : decode 0b00000110000000000000000000000000 = .ok .mtfIbegin := by decide
theorem test_decode_isym : decode 0b00000111000000000000000011111111 = .ok (.mtfIsym 255) := by decide
theorem test_decode_rge_cfg : decode 0b00001000000000000000000100000011 = .ok (.rgeCfg true 3) := by decide
theorem test_decode_rge_enc : decode 0b00001001000000000000000000001010 = .ok (.rgeEnc 10) := by decide
theorem test_decode_rgd_cfg : decode 0b00001010000000000000000011111111 = .ok (.rgdCfg false 255) := by decide
theorem test_decode_rgd_dec : decode 0b00001011000000000000000000000000 = .ok .rgdDec := by decide
theorem test_decode_rdcsr : decode 0b00001100000000000000000000000011 = .ok (.rdcsr 3) := by decide
theorem test_decode_reserved : decode 0b11111111000000000000000000000000 = .error .reservedOpcode := by decide
theorem test_decode_zero_field : decode 0b00000101000000000000000100000000 = .error .nonzeroField := by decide
theorem test_decode_bad_csr : decode 0b00001100000000000000000000000100 = .error .csrOutOfRange := by decide
theorem test_table_word : decodeTableWord 32 0x05000041 = some (.mtfFsym 65) := by decide
theorem test_linkBits : linkBits none = 0x100 ∧ linkBits (some 255) = 0x0FF := by decide

/-! ### One step of each command -/

/-- R175. -/
theorem test_nop : response (after .nop locked) = 0x00000000 := by decide +kernel

/-- V26, first line. -/
theorem test_setsize : (after (.mtfSetsize 2) State.reset).size = 2 := by decide +kernel

/-- V2 as a block command. -/
theorem test_fwd : (after (.mtfFwd 4) (withBuf [65, 65, 66, 65])).buf = (withBuf [65, 0, 66, 1]).buf := by
  decide +kernel

/-- V27. -/
theorem test_fwd_range : response (after (.mtfFwd 4) { withBuf [65, 65, 66, 65] with size := 5 }) = 0x04000000 := by
  decide +kernel

/-- V33. -/
theorem test_inv : (after (.mtfInv 4) (withBuf [65, 0, 66, 1])).buf = (withBuf [65, 65, 66, 65]).buf := by
  decide +kernel

/-- V34: `SIZE = 2`. -/
theorem test_inv_size :
    (after (.mtfInv 4) { withBuf [65, 0, 66, 1] with size := 2 }).buf = (withBuf [65, 65, 66, 1]).buf := by
  decide +kernel

/-- V20: `HEAD` of the canonical state. -/
theorem test_fbegin : (after .mtfFbegin lateState).rank.head.read 2 = some 18 := by decide +kernel

/-- V15: the global last node. -/
theorem test_fsym_last :
    response (after (.mtfFsym 255) State.reset) = 0x000000FF ∧
      (after (.mtfFsym 255) State.reset).rank.next.read 254 = none := by decide +kernel

/-- V23, command 64: the threshold is passed and the order is carved anew. -/
theorem test_fsym_rebalance : (after (.mtfFsym 67) lateState).rank.len.read 0 = 1 := by decide +kernel

/-- V36: the identity again. -/
theorem test_ibegin :
    (after .mtfIbegin { State.reset with idx := State.reset.idx.write 3 0 }).idx.read 3 = 3 := by decide +kernel

/-- V31. -/
theorem test_isym :
    response (after (.mtfIsym 255) State.reset) = 0x000000FF ∧
      (after (.mtfIsym 255) State.reset).idx.read 1 = 0 := by decide +kernel

/-- R177, the example: after `RGE.CFG 3, s` the register reads `0x002303`. -/
theorem test_rge_cfg : csrValue (after (.rgeCfg true 3) State.reset) 1 = some 0x002303 := by decide +kernel

/-- R137, the example. -/
theorem test_rge_cfg_refused : response (after (.rgeCfg true 8) State.reset) = 0x01000000 := by decide +kernel

/-- V1. -/
theorem test_rge_enc : (after (.rgeEnc 10) (withEnc false 3 [])).ech.bits = bits [0, 1, 0, 1, 0] := by decide +kernel

/-- V45, `L = 7`: the byte `0x80` in signed mode. -/
theorem test_rge_enc_min :
    (after (.rgeEnc 0x80) (withEnc true 7 [])).ech.bits = bits [0, 1, 0, 0, 0, 0, 0, 0, 0, 1] := by decide +kernel

/-- R156, the example's word. -/
theorem test_rgd_cfg : (after (.rgdCfg false 3) State.reset).dec = ⟨true, false, 3⟩ := by decide +kernel

/-- V1. -/
theorem test_rgd_dec : response (after .rgdDec (withDec false 3 [0, 1, 0, 1, 0])) = 0x0000000A := by decide +kernel

/-- V42, `0xF6` in signed mode. -/
theorem test_rgd_dec_negative :
    response (after .rgdDec (withDec true 3 [0, 1, 0, 1, 0, 1])) = 0x000000F6 := by decide +kernel

/-- V27, last line: `STATUS` after `E_RANGE`. -/
theorem test_rdcsr : response (after (.rdcsr 3) { State.reset with status := 4 }) = 0x00000004 := by decide +kernel

/-- The placed word is the next command. -/
theorem test_step :
    step (State.reset.withFetchWord 32 0x01000002) =
      exec (.mtfSetsize 2) { State.reset with arg := 2 } := by rfl

/-! ### Witnesses: states and operands that meet the hypotheses of each statement -/

theorem witness_DecodeOfEncode : (Instr.rdcsr 3).wellFormed = true := by decide

theorem witness_EncodeOfDecode : decode 0x080001FF = .ok (.rgeCfg true 255) := by decide

theorem witness_RowSelection :
    decode 0x0C000003 = .ok (.rdcsr 3) ∧ (0x0C000000, 0xFFFFFF00) ∈ tableRows ∧
      Selects (0x0C000000, 0xFFFFFF00) 0x0C0000FF := by
  refine ⟨by decide, by decide, ?_⟩
  unfold Selects; decide

theorem witness_IllegalWords :
    IllegalWord 0x0D000000 ∧ IllegalWord 0x00000001 ∧ IllegalWord 0x05000100 ∧ IllegalWord 0x08000200 ∧
      IllegalWord 0x0C000004 ∧ ¬IllegalWord 0x0C000003 ∧ ¬IllegalWord 0x080001FF ∧
      State.reset.faultFlag = false ∧ (0 : Byte).toNat = 0 ∧ 8 ≤ (8 : Byte).toNat := by
  refine ⟨?_, ?_, ?_, ?_, ?_, ?_, ?_, rfl, rfl, by decide⟩ <;> (unfold IllegalWord; decide)

theorem witness_StepRunsTheDecodedCommand :
    (withPort (.command 0x050000FF)).port = .command 0x050000FF :: [] ∧ decode 0x050000FF = .ok (.mtfFsym 255) ∧
      (withPort (.command 0x05000100)).port = .command 0x05000100 :: [] ∧ decode 0x05000100 = .error .nonzeroField := by
  decide

theorem witness_ResetInsideACommand :
    ({ withBuf [65, 65, 66, 65] with port := [.commandCut 0x02000004 2] } : State).port =
      .commandCut 0x02000004 2 :: [] ∧ (withBuf [65, 65, 66, 65]).buf.wf ∧ decode 0x02000004 = .ok (.mtfFwd 4) ∧
      exec (.mtfFwd 4) (withBuf [65, 65, 66, 65]) = .next (after (.mtfFwd 4) (withBuf [65, 65, 66, 65])) ∧
      decode 0x05000041 = .ok (.mtfFsym 65) ∧ isBlock (.mtfFsym 65) = false := by
  refine ⟨rfl, by decide +kernel, by decide, rfl, by decide, rfl⟩

theorem witness_CarveRestoresThePartition : late.Chained := late_wf.1.1

theorem witness_FbeginEstablishesTheCanonicalState : State.reset.faultFlag = false := rfl

theorem witness_FsymFastPath : lateState.faultFlag = false := rfl

theorem witness_FsymReturnsTheRank : lateState.faultFlag = false ∧ lateState.rank.WF ∧ lateState.rank.Quiescent :=
  ⟨rfl, late_wf.1, late_quiescent⟩

/-- A symbol of bucket 0. -/
theorem witness_FsymSettles_bucket_zero :
    early.WF ∧ early.Quiescent ∧ (1 : Byte) ≠ early.prevSym ∧ early.bkt.read 1 = 0 :=
  ⟨early_wf.1, early_quiescent, by decide +kernel, by decide +kernel⟩

/-- `LEN[0]` at the threshold, and a bucket of one symbol. -/
theorem witness_FsymSettles_rebalance :
    late.WF ∧ late.Quiescent ∧ (64 : Byte) ≠ late.prevSym ∧ late.bkt.read 64 = 1 ∧ (late.len.read 0).toNat = 64 ∧
      late.len.read 1 = 1 ∧ late.bkt.read 67 = 4 ∧ late.len.read 4 ≠ 1 :=
  ⟨late_wf.1, late_quiescent, by decide +kernel, by decide +kernel, by decide +kernel, by decide +kernel,
    by decide +kernel, by decide +kernel⟩

/-- No rebalance. -/
theorem witness_FsymSettles_plain :
    early.bkt.read 255 = 15 ∧ (early.len.read 0).toNat < 64 ∧ early.len.read 15 ≠ 1 ∧ (255 : Byte) ≠ early.prevSym := by
  decide +kernel

theorem witness_FsymSymbolNotFound :
    broken.faultFlag = false ∧ (65 : Byte) ≠ broken.rank.prevSym ∧
      broken.rank.len.read (broken.rank.bkt.read 65) ≠ 0 ∧
      (65 : Byte) ∉ chainFrom broken.rank.next (broken.rank.len.read (broken.rank.bkt.read 65)).toNat
        (broken.rank.head.read (broken.rank.bkt.read 65)) := by decide +kernel

theorem witness_FsymRepeatedSymbol :
    exec (.mtfFsym 65) State.reset = .next (after (.mtfFsym 65) State.reset) ∧
      (after (.mtfFsym 65) State.reset).status = 0 := ⟨rfl, by decide +kernel⟩

/-- `SIZE = 0`, for `MTF.FWD` and `MTF.INV`. -/
theorem witness_block_size_zero :
    (withBuf [65, 65, 66, 65]).faultFlag = false ∧ (withBuf [65, 65, 66, 65]).buf.wf ∧
      (withBuf [65, 65, 66, 65]).size = 0 := by decide +kernel

/-- `SIZE = len`, for `MTF.FWD` and `MTF.INV`. -/
theorem witness_block_size_len :
    ({ withBuf [65, 0, 66, 1] with size := 4 } : State).buf.wf ∧ (4 : Data) ≠ 0 ∧ (4 : Data).toNat ≤ (4 : Data).toNat := by
  decide +kernel

theorem witness_BlockCommandsRefuse :
    ({ State.reset with size := 5 } : State).faultFlag = false ∧ (5 : Data) ≠ 0 ∧ (4 : Data).toNat < (5 : Data).toNat := by
  decide +kernel

theorem witness_IbeginWritesTheIdentity : lateState.faultFlag = false := rfl

/-- The last shifted entry and the first that stays. -/
theorem witness_IsymRotatesTheSlice :
    State.reset.faultFlag = false ∧ 0 < (254 : Byte).toNat ∧ (254 : Byte).toNat ≤ (254 : Byte).toNat ∧
      (254 : Byte).toNat < (255 : Byte).toNat := by decide +kernel

theorem witness_IdxStaysAPermutation :
    exec (.mtfIsym 7) State.reset = .next (after (.mtfIsym 7) State.reset) ∧ IdxPermutation State.reset.idx :=
  ⟨rfl, identityIdx_permutation⟩

theorem witness_InverseStepUndoes :
    lateState.rank.WF ∧ lateState.rank.Quiescent ∧ lateState.faultFlag = false ∧
      tableList lateState.idx = lateState.rank.order ∧
      exec (.mtfFsym 65) lateState = .next (after (.mtfFsym 65) lateState) ∧
      (after (.mtfFsym 65) lateState).res = (65 : Byte).setWidth 24 := by
  refine ⟨late_wf.1, late_quiescent, rfl, ?_, rfl, by decide +kernel⟩
  rw [show lateState.rank.order = identityChain from late_wf.2]
  decide +kernel

theorem witness_CfgConstructsOrRefuses :
    locked.faultFlag = true ∧ State.reset.faultFlag = false ∧ State.reset.ech.isPresent = true ∧
      State.reset.dch.isPresent = true ∧ 1 ≤ (7 : Byte).toNat ∧ (7 : Byte).toNat ≤ 7 ∧ 8 ≤ (8 : Byte).toNat := by
  decide +kernel

theorem witness_Cfg_absent :
    ({ State.reset with ech := { State.reset.ech with isPresent := false } } : State).ech.isPresent = false := rfl

theorem witness_CodecNeedsConstruction :
    State.reset.faultFlag = false ∧ State.reset.enc.valid = false ∧ State.reset.dec.valid = false := by decide

theorem witness_EncAppends :
    (withEnc true 7 []).faultFlag = false ∧ (withEnc true 7 []).enc.valid = true ∧
      (withEnc true 7 []).ech.answers.head? ≠ some false ∧ (withEnc true 7 [true]).ech.answers.head? ≠ some false := by
  decide

theorem witness_EncWriteFailure :
    (withEnc true 7 [false]).faultFlag = false ∧ (withEnc true 7 [false]).enc.valid = true ∧
      (withEnc true 7 [false]).ech.answers.head? = some false := by decide

theorem witness_CodewordsArePrefixFree :
    1 ≤ 7 ∧ 7 ≤ 7 ∧ msbFirst (codeword true 7 0x80).1 (codeword true 7 0x80).2 <+:
      msbFirst (codeword true 7 0x80).1 (codeword true 7 0x80).2 := by decide +kernel

/-- Unsigned: `01010` (V1). -/
theorem witness_DecParses_unsigned :
    (withDec false 3 [0, 1, 0, 1, 0]).dec.valid = true ∧ (bits [0, 1, 0]).length = 3 ∧
      (withDec false 3 [0, 1, 0, 1, 0]).dch.bits.drop 0 = List.replicate 1 false ++ [true] ++ bits [0, 1, 0] ++ [] ∧
      CallsSucceed (withDec false 3 [0, 1, 0, 1, 0]).dch 3 := by
  refine ⟨rfl, rfl, rfl, ?_⟩
  unfold CallsSucceed; decide

/-- Signed, a zero: no sign bit. -/
theorem witness_DecParses_zero :
    (withDec true 3 [1, 0, 0, 0, 1]).dch.bits.drop 0 =
      List.replicate 0 false ++ [true] ++ bits [0, 0, 0] ++ bits [1] ∧ (∀ b ∈ bits [0, 0, 0], b = false) := by
  decide

/-- Signed, a negative byte. -/
theorem witness_DecParses_signed :
    (withDec true 3 [0, 1, 0, 1, 0, 1]).dec.signed = true ∧
      (withDec true 3 [0, 1, 0, 1, 0, 1]).dch.bits.drop 0 =
        List.replicate 1 false ++ [true] ++ bits [0, 1, 0] ++ [true] ++ [] ∧
      (1 ≠ 0 ∨ ∃ b ∈ bits [0, 1, 0], b = true) ∧ CallsSucceed (withDec true 3 [0, 1, 0, 1, 0, 1]).dch 4 := by
  refine ⟨rfl, rfl, .inl (by decide), ?_⟩
  unfold CallsSucceed; decide

/-- In the prefix: the environment fails the second `ReadBit`, or the channel ends after two zeros. -/
theorem witness_DecFailure_prefix :
    (answering [true, false] (withDec false 3 [0, 1, 0, 1, 0])).faultFlag = false ∧
      (answering [true, false] (withDec false 3 [0, 1, 0, 1, 0])).dec.valid = true ∧
      (answering [true, false] (withDec false 3 [0, 1, 0, 1, 0])).dch.bits.drop 0 =
        List.replicate 1 false ++ bits [1, 0, 1, 0] ∧
      CallsSucceed (answering [true, false] (withDec false 3 [0, 1, 0, 1, 0])).dch 1 ∧
      (answering [true, false] (withDec false 3 [0, 1, 0, 1, 0])).dch.answers[1]? = some false ∧
      (withDec false 3 [0, 0]).dch.bits.drop 0 = List.replicate 2 false ++ [] ∧
      CallsSucceed (withDec false 3 [0, 0]).dch 2 := by
  unfold CallsSucceed; decide

/-- In the remainder: the environment fails the `ReadBits` of three bits that are there, or only two remain. -/
theorem witness_DecFailure_remainder :
    (answering [true, true, false] (withDec false 3 [0, 1, 0, 1, 0])).dch.bits.drop 0 =
        List.replicate 1 false ++ [true] ++ bits [0, 1, 0] ∧
      CallsSucceed (answering [true, true, false] (withDec false 3 [0, 1, 0, 1, 0])).dch 2 ∧
      (answering [true, true, false] (withDec false 3 [0, 1, 0, 1, 0])).dch.answers[2]? = some false ∧
      (withDec false 3 [0, 1, 0, 1]).dch.bits.drop 0 = List.replicate 1 false ++ [true] ++ bits [0, 1] ∧
      (bits [0, 1]).length < (withDec false 3 [0, 1, 0, 1]).dec.logBase.toNat := by
  unfold CallsSucceed; decide

/-- Before the sign: the environment fails the `ReadBit` of a bit that is there, or no bit remains. -/
theorem witness_DecFailure_sign :
    (answering [true, true, false] (withDec true 3 [1, 1, 0, 0, 1])).dch.bits.drop 0 =
        List.replicate 0 false ++ [true] ++ bits [1, 0, 0] ++ bits [1] ∧
      (bits [1, 0, 0]).length = (withDec true 3 [1, 1, 0, 0, 1]).dec.logBase.toNat ∧
      (withDec true 3 [1, 1, 0, 0, 1]).dec.signed = true ∧ (0 ≠ 0 ∨ ∃ b ∈ bits [1, 0, 0], b = true) ∧
      CallsSucceed (answering [true, true, false] (withDec true 3 [1, 1, 0, 0, 1])).dch 2 ∧
      (answering [true, true, false] (withDec true 3 [1, 1, 0, 0, 1])).dch.answers[2]? = some false ∧
      (withDec true 3 [1, 1, 0, 0]).dch.bits.drop 0 = List.replicate 0 false ++ [true] ++ bits [1, 0, 0] ++ [] := by
  unfold CallsSucceed; decide

/-- Only zeros remain, and the environment fails the first call. -/
theorem witness_DecFailure_zeros :
    (answering [false] (withDec false 3 [0, 0])).dch.bits.drop 0 = List.replicate 2 false ∧
      (answering [false] (withDec false 3 [0, 0])).dec.valid = true := by decide

/-- `10` with the configuration 3, unsigned: the codeword of V1. -/
theorem witness_CodecRoundTrip :
    (withEnc false 3 []).enc.valid = true ∧ 1 ≤ (withEnc false 3 []).enc.logBase.toNat ∧
      (withDec false 3 [0, 1, 0, 1, 0]).dec = (withEnc false 3 []).enc ∧
      (∀ b ∈ (withEnc false 3 []).ech.answers, b = true) ∧
      (withDec false 3 [0, 1, 0, 1, 0]).dch.bits.drop 0 = codewordBits false 3 10 ++ [] := by decide +kernel

theorem witness_NopAndSetsize : opOf 0x00FFFFFF = 0 ∧ opOf 0 = 0 := by decide

theorem witness_RdcsrReadsTheRegisters :
    (0 : Byte).toNat = 0 ∧ (1 : Byte).toNat = 1 ∧ (2 : Byte).toNat = 2 ∧ (3 : Byte).toNat = 3 ∧ 4 ≤ (4 : Byte).toNat ∧
      opOf 0x0C000100 = 0x0C ∧
      2 ^ 8 ≤ argOf 0x0C000100 := by decide

theorem witness_FaultLock :
    locked.faultFlag = true ∧ ignoresFault .rgdDec = false ∧ exec .nop locked = .next (after .nop locked) :=
  ⟨rfl, rfl, rfl⟩

theorem witness_OnlyResetClearsFault : step locked = .next locked ∧ locked.faultFlag = true := ⟨rfl, rfl⟩

theorem witness_EveryCommandWordIsAnswered : (withPort (.command 0x0C000004)).port = .command 0x0C000004 :: [] := rfl

theorem witness_ResponsesIgnoreThePartition :
    State.reset.rank.WF ∧ State.reset.rank.Quiescent ∧ late.WF ∧ late.Quiescent ∧
      late.order = State.reset.rank.order ∧
      exec (.mtfFsym 67) State.reset = .next (after (.mtfFsym 67) State.reset) ∧
      exec (.mtfFsym 67) lateState = .next (after (.mtfFsym 67) lateState) :=
  ⟨canonical_wf.1, canonical_wf.2, late_wf.1, late_quiescent, late_wf.2.trans canonical_order.symm, rfl, rfl⟩

theorem witness_EnginesShareNoState :
    isForward (.mtfFsym 65) = true ∧ isInverse (.mtfIsym 65) = true ∧
      exec (.mtfFsym 65) State.reset = .next (after (.mtfFsym 65) State.reset) ∧
      exec (.mtfIsym 65) State.reset = .next (after (.mtfIsym 65) State.reset) := ⟨rfl, rfl, rfl, rfl⟩

theorem witness_CommandsWriteOnlyTheirRow :
    exec (.mtfFwd 4) (withBuf [65, 65, 66, 65]) = .next (after (.mtfFwd 4) (withBuf [65, 65, 66, 65])) ∧
      (withBuf [65, 65, 66, 65]).buf.wf := ⟨rfl, by decide +kernel⟩

theorem witness_StepKeepsTheInvariant :
    ({ lateState with port := [.command 0x05000043] } : State).Inv ∧
      ∃ t, step { lateState with port := [.command 0x05000043] } = .next t :=
  ⟨⟨late_wf.1, late_quiescent, identityIdx_permutation, by intro h; exact absurd h (by decide),
    by intro h; exact absurd h (by decide), rfl, Memory.wf_nil⟩,
    _, rfl⟩

theorem witness_HostActions :
    (withPort (.fillBuf 0xFFFFFF 1)).port = .fillBuf 0xFFFFFF 1 :: [] ∧ (withPort (.fillBuf 0xFFFFFF 1)).buf.wf ∧
      (withPort (.appendEch [true])).port = .appendEch [true] :: [] ∧
      (withPort (.supplyDch [true])).port = .supplyDch [true] :: [] ∧
      (withPort (.moveDch 5)).port = .moveDch 5 :: [] ∧ (withPort .reset).port = .reset :: [] ∧
      (withPort (.answerCalls [false] [])).port = .answerCalls [false] [] :: [] ∧ State.reset.port = [] :=
  ⟨rfl, Memory.wf_nil, rfl, rfl, rfl, rfl, rfl, rfl⟩

end Sys2Proof.Tests
end

section
/-! PROOFS. Accepting a command word (00_scope.md R7, R8): the step is the decoded command's meaning or the rejection of
the word, and either way the word gets one response. -/

namespace Sys2Proof

/-- The decoder keeps the opcode (30_encoding.md R73): a command is read from a word of its own `op`. -/
theorem opcode_of_decode {w : Word} {i : Instr} (h : decode w = .ok i) : i.opcode = opField w := by
  unfold decode at h
  split at h
  all_goals
    rename_i hop
    (repeat' split at h) <;> cases h <;> exact BitVec.eq_of_toNat_eq hop.symm

namespace Machine

/-! ### The step on a command word -/

theorem step_of_decode_ok {s : State} {w : Word} {rest : List PortEvent} {i : Instr}
    (hp : s.port = .command w :: rest) (hd : decode w = .ok i) : step s = exec i (s.accept w rest) := by
  simp [step, hp, hd]

theorem step_of_decode_error {s : State} {w : Word} {rest : List PortEvent} {e : DecodeError}
    (hp : s.port = .command w :: rest) (hd : decode w = .error e) :
    step s = .next ((s.accept w rest).rejectWord w) := by
  simp [step, hp, hd]

/-! ### One response -/

theorem codeBits_toNat_le (c : Code) : (codeBits c).toNat ≤ 6 := by
  cases c <;> decide

theorem codeBits_eq_zero_iff (c : Code) : codeBits c = 0 ↔ c = .ok := by
  cases c <;> decide

/-- From `s` to `t` exactly one response was returned, with this code and data; an error carries no data (R72). The port
waits as it did. -/
structure Responds (s t : State) (c : Code) (data : Data) : Prop where
  responses : t.responses = s.responses ++ [responseWord c data]
  data_of_error : c ≠ .ok → data = 0
  port : t.port = s.port

/-- A command that ends as R38 and R72 say: one response, and `STATUS` takes its code. -/
def Finishes (s t : State) : Prop := ∃ c data, Responds s t c data ∧ t.status = codeBits c

section
variable {s s' : State} {c : Code} {data : Data}
  (hp : s'.port = s.port := by rfl) (hr : s'.responses = s.responses := by rfl)
include hp hr

theorem finishes_complete : Finishes s (s'.complete data) :=
  ⟨.ok, data, ⟨by simp [hr], fun h => absurd rfl h, by simp [hp]⟩, rfl⟩

theorem finishes_raise : Finishes s (s'.raise c) :=
  ⟨c, 0, ⟨by simp [hr], fun _ => rfl, by simp [hp]⟩, rfl⟩

theorem finishes_raiseInternal : Finishes s s'.raiseInternal :=
  ⟨.internal, 0, ⟨by simp [hr], fun _ => rfl, by simp [hp]⟩, rfl⟩

end

/-- The fault lock ends a command as well (60_exceptions.md R199). -/
theorem finishes_unlessLocked {s t : State} (h : Finishes s t) : Finishes s (s.unlessLocked t) := by
  obtain ⟨-, hl⟩ | ⟨-, hl⟩ := s.unlessLocked_cases t <;> rw [hl]
  · exact finishes_raise
  · exact h

/-- Every command but `RDCSR` writes `STATUS` (R38). -/
theorem exec_finishes {i : Instr} (s : State) (hi : i.opcode ≠ 0x0C) : ∃ t, exec i s = .next t ∧ Finishes s t := by
  cases i with
  | nop => exact ⟨_, rfl, finishes_complete⟩
  | mtfSetsize size => exact ⟨_, rfl, finishes_unlessLocked finishes_complete⟩
  | mtfFwd len =>
    refine ⟨_, rfl, finishes_unlessLocked ?_⟩
    split
    · exact finishes_raise
    · split
      · exact finishes_complete
      · exact finishes_raiseInternal
  | mtfInv len =>
    refine ⟨_, rfl, finishes_unlessLocked ?_⟩
    split
    · exact finishes_raise
    · exact finishes_complete
  | mtfFbegin => exact ⟨_, rfl, finishes_unlessLocked finishes_complete⟩
  | mtfFsym sym =>
    refine ⟨_, rfl, finishes_unlessLocked ?_⟩
    split
    · exact finishes_raiseInternal
    · exact finishes_complete
  | mtfIbegin => exact ⟨_, rfl, finishes_unlessLocked finishes_complete⟩
  | mtfIsym rank => exact ⟨_, rfl, finishes_unlessLocked finishes_complete⟩
  | rgeCfg signed logBase | rgdCfg signed logBase =>
    refine ⟨_, rfl, finishes_unlessLocked ?_⟩
    split
    · exact finishes_complete
    · exact finishes_raise
  | rgeEnc val | rgdDec =>
    refine ⟨_, rfl, finishes_unlessLocked ?_⟩
    split
    · split
      · exact finishes_complete
      · exact finishes_raise
    · exact finishes_raise
  | rdcsr csr => exact absurd rfl hi

/-- `RDCSR` responds and leaves `STATUS` alone (44_system.md R177). -/
theorem execRdcsr_responds (csr : Byte) (s : State) :
    ∃ t c data, execRdcsr csr s = .next t ∧ Responds s t c data ∧ t.status = s.status := by
  unfold execRdcsr
  split
  · exact ⟨_, .ok, _, rfl, ⟨rfl, fun h => absurd rfl h, rfl⟩, rfl⟩
  · exact ⟨_, .illegal, 0, rfl, ⟨rfl, fun _ => rfl, rfl⟩, rfl⟩

/-- How a command of opcode `op` ends: one response, its code in `STATUS` unless `op` is `0x0C` (R38, R72). -/
def AnswersOpcode (op : Byte) (s t : State) : Prop :=
  ∃ c data, Responds s t c data ∧ t.status = if op = 0x0C then s.status else codeBits c

theorem exec_answersOpcode (i : Instr) (s : State) : ∃ t, exec i s = .next t ∧ AnswersOpcode i.opcode s t := by
  by_cases hi : i.opcode = 0x0C
  · cases i with
    | rdcsr csr =>
      obtain ⟨t, c, data, ht, hresp, hstatus⟩ := execRdcsr_responds csr s
      exact ⟨t, ht, c, data, hresp, by rw [if_pos hi, hstatus]⟩
    | _ => exact absurd hi (by simp [Instr.opcode])
  · obtain ⟨t, ht, c, data, hresp, hstatus⟩ := exec_finishes s hi
    exact ⟨t, ht, c, data, hresp, by rw [if_neg hi, hstatus]⟩

theorem rejectWord_answersOpcode (s : State) (w : Word) : AnswersOpcode (opField w) s (s.rejectWord w) := by
  refine ⟨.illegal, 0, ⟨?_, fun _ => rfl, ?_⟩, s.rejectWord_status w⟩ <;> rw [State.rejectWord_eq]

/-- A step with a command word in the port answers the word, legal or not (R8). -/
theorem step_answersOpcode {s : State} {w : Word} {rest : List PortEvent} (hp : s.port = .command w :: rest) :
    ∃ t, step s = .next t ∧ AnswersOpcode (opField w) (s.accept w rest) t := by
  cases hd : decode w with
  | ok i =>
    rw [step_of_decode_ok hp hd, ← opcode_of_decode hd]
    exact exec_answersOpcode i _
  | error e => exact ⟨_, step_of_decode_error hp hd, rejectWord_answersOpcode _ w⟩

end Machine

namespace Claims

open Machine

/-- The opcode in the statements' spelling. -/
theorem opField_eq_iff_opOf (w : Word) : opField w = 0x0C ↔ opOf w = 0x0C := by
  rw [← BitVec.toNat_inj, opField_toNat]
  rfl

/-- Settles O6, by the step's two equations for a command word. -/
theorem stepRunsTheDecodedCommand : Obligations.StepRunsTheDecodedCommand := fun _ _ _ hp =>
  ⟨fun _ hd => step_of_decode_ok hp hd, fun _ hd => step_of_decode_error hp hd⟩

/-- Settles O40: every command ends in one response, and so does the rejection of an illegal word. -/
theorem everyCommandWordIsAnswered : Obligations.EveryCommandWordIsAnswered := by
  intro s w rest hp
  obtain ⟨t, hstep, c, data, hresp, hstatus⟩ := step_answersOpcode hp
  refine ⟨t, codeBits c, data, hstep, hresp.responses, codeBits_toNat_le c, fun hc => ?_, ?_, hresp.port⟩
  · exact hresp.data_of_error fun hok => hc ((codeBits_eq_zero_iff c).mpr hok)
  · simpa only [opField_eq_iff_opOf, State.accept_status] using hstatus

end Claims

end Sys2Proof
end

section
/-! PROOFS. The forward step on a well-formed structure (40_mtf_forward.md R96 to R112): it finds the symbol at its
position in the order, moves it to the front, and leaves a well-formed structure within the quiescent bounds (R111). -/

namespace Sys2Proof.Machine

/-! ### Where a symbol stands -/

/-- A symbol behind the front: what the order holds before and after it, and that its position lies in the slice of the
bucket `BKT` names (10_state.md R33, R34). -/
structure Located (r : RankStructure) (v : Byte) (a b : List Byte) : Prop where
  order : r.order = a ++ v :: b
  notMem : v ∉ a
  front : a ≠ []
  lower : bucketOffset r (r.bkt.read v).toNat ≤ a.length
  upper : a.length < bucketOffset r ((r.bkt.read v).toNat + 1)

theorem exists_located {r : RankStructure} {v : Byte} (hw : r.WF) (hv : v ≠ r.prevSym) : ∃ a b, Located r v a b := by
  obtain ⟨o, hfront⟩ := order_starts_with_prevSym hw
  obtain ⟨hc, hsum, -, hnamed, -⟩ := hw
  obtain ⟨hlen, hn, -, -⟩ := chained_iff.mp hc
  obtain ⟨a, b, ho⟩ := List.append_of_mem (mem_of_full hlen hn v)
  have hget : r.order[a.length]? = some v := by simp [ho]
  have hlt : a.length < 256 := hlen ▸ (List.getElem?_eq_some_iff.mp hget).1
  obtain ⟨k, hk1, hk2⟩ := exists_bucket_of_lt hsum hlt
  obtain rfl : r.bkt.read v = k := hnamed k a.length v hk1 hk2 hget
  refine ⟨a, b, ho, fun hm => ?_, fun ha => ?_, hk1, hk2⟩
  · rw [ho] at hn
    exact (List.nodup_append.mp hn).2.2 v hm v (by simp) rfl
  · rw [ho, ha] at hfront
    exact hv (List.cons.inj hfront).1

namespace Located

variable {r : RankStructure} {v : Byte} {a b : List Byte} (h : Located r v a b)
include h

theorem idxOf_eq : r.order.idxOf v = a.length := by
  rw [h.order, List.idxOf_append_of_notMem h.notMem, List.idxOf_cons_self, Nat.add_zero]

theorem moveToFront_eq : moveToFront r.order v = v :: (a ++ b) := by
  rw [moveToFront, h.order, List.erase_append_right _ h.notMem, List.erase_cons_head]

/-- `RANKQ` answers the symbol's position (R98 to R101). -/
theorem rankQuery_eq (hw : r.WF) : rankQuery r v (r.bkt.read v) = some (r.order.idxOf v) := by
  rw [h.idxOf_eq]
  exact rankQuery_spec hw h.order _ h.lower h.upper

end Located

/-! ### The promotion -/

/-- What R103 to R105 make of `r`: `v`, which stood between `a` and `b`, is the first node of the chain, and the
buckets are not settled yet. -/
structure Relinked (r r₂ : RankStructure) (v : Byte) (a b : List Byte) : Prop where
  next : Path r₂.next (r₂.head.read 0) (v :: (a ++ b)) none
  prev : Path r₂.prev (v :: (a ++ b)).getLast? (v :: (a ++ b)).reverse none
  head : ∀ i, r₂.head.read i = newHead r v (r.bkt.read v) i b.head?
  len : r₂.len = r.len
  bkt : r₂.bkt = r.bkt

/-- A well-formed structure within the quiescent bounds, of the given order (10_state.md R34, R35). -/
structure Settled (r : RankStructure) (o : List Byte) : Prop where
  order : r.order = o
  wf : r.WF
  quiescent : r.Quiescent

theorem promote_eq {r : RankStructure} {v : Byte} {a b : List Byte} (hc : r.Chained) (h : Located r v a b) :
    ∃ r₂, Relinked r r₂ v a b ∧ promote r v (r.bkt.read v) =
      (settleBuckets r₂ v (r.bkt.read v)).map fun r₃ => { r₃ with prevSym := v } := by
  obtain ⟨-, hn, hp, hb⟩ := chained_iff.mp hc
  rw [h.order] at hn hp hb
  obtain ⟨r₁, r₂, hunlink, hrelink, hnext, hprev, hhead, hlen, hbkt⟩ := promote_links (r.bkt.read v) hn h.front hp hb
  refine ⟨r₂, ⟨hnext, hprev, hhead, hlen, hbkt⟩, ?_⟩
  simp only [promote, hunlink, hrelink]
  cases settleBuckets r₂ v (r.bkt.read v) <;> rfl

theorem bookkeep_len (r : RankStructure) (v : Byte) {k : BitVec 4} (hk : k ≠ 0) :
    (bookkeep r v k).len = (r.len.write 0 (r.len.read 0 + 1)).write k (r.len.read k - 1) := by
  simp only [bookkeep, Table.read_write_of_ne _ _ hk.symm]

section
variable {r r₂ : RankStructure} {v : Byte} {a b : List Byte} (hw : r.WF) (hq : r.Quiescent) (h : Located r v a b)
  (h₂ : Relinked r r₂ v a b)
include hw h

/-- The new order is a permutation like the old one. -/
theorem promoted_order_full : (v :: (a ++ b)).length = 256 ∧ (v :: (a ++ b)).Nodup := by
  obtain ⟨hlen, hn, -, -⟩ := chained_iff.mp hw.1
  rw [h.order] at hlen hn
  exact ⟨List.perm_middle.length_eq ▸ hlen, List.perm_middle.nodup_iff.mp hn⟩

include h₂

/-- Settling the buckets keeps the chain; so the result is settled once its partition is. -/
theorem settled_of_partition {r₃ : RankStructure} (hnext : r₃.next = r₂.next) (hprev : r₃.prev = r₂.prev)
    (hhead : r₃.head.read 0 = r₂.head.read 0) (hfront : r₃.prevSym = v)
    (hpart : r₃.order = v :: (a ++ b) → r₃.LengthsSum ∧ r₃.HeadsAtOffsets ∧ r₃.BucketsNamed ∧ r₃.Quiescent) :
    Settled r₃ (v :: (a ++ b)) := by
  obtain ⟨hlen, hn⟩ := promoted_order_full hw h
  obtain ⟨ho, hc⟩ := chained_of_paths (r := r₃) hlen hn (by rw [hnext, hhead]; exact h₂.next)
    (by rw [hprev]; exact h₂.prev)
  obtain ⟨hsum, hheads, hnamed, hquiet⟩ := hpart ho
  refine ⟨ho, ⟨hc, hsum, hheads, hnamed, ?_⟩, hquiet⟩
  rw [RankStructure.FrontRemembered, ho, hfront]
  rfl

include hq in
/-- A symbol of bucket 0: nothing is left to settle (R106). -/
theorem settled_within_front (hk : r.bkt.read v = 0) : Settled { r₂ with prevSym := v } (v :: (a ++ b)) := by
  have ⟨_, hsum, hheads, hnamed, _⟩ := hw
  refine settled_of_partition hw h h₂ rfl rfl rfl rfl fun ho => ?_
  exact wf_of_promote_from_front hsum hheads hnamed hq h.order (by simpa [hk] using h.upper) hk ho
    (fun i => by simpa [hk] using h₂.head i) h₂.len h₂.bkt

include hq in
/-- A symbol of another bucket, with no rebalance due (R106, R107). -/
theorem settled_by_bookkeep (hk : r.bkt.read v ≠ 0)
    (hcarve : ¬(Config.thresh < ((bookkeep r₂ v (r.bkt.read v)).len.read 0).toNat ∨
      (bookkeep r₂ v (r.bkt.read v)).len.read (r.bkt.read v) = 0)) :
    Settled { bookkeep r₂ v (r.bkt.read v) with prevSym := v } (v :: (a ++ b)) := by
  have ⟨hc, hsum, hheads, hnamed, _⟩ := hw
  obtain ⟨-, hn, -, -⟩ := chained_iff.mp hc
  refine settled_of_partition hw h h₂ rfl rfl rfl rfl fun ho => ?_
  exact wf_of_promote_from_other hk (h.order ▸ hn) hsum hheads hnamed hq h.order h.lower h.upper ho h₂.head
    (by rw [← h₂.len]; exact bookkeep_len r₂ v hk) (by rw [← h₂.bkt]; rfl) hcarve

/-- A rebalance (R92): `CARVE` goes through and leaves the canonical partition of the new order. -/
theorem settled_by_carve (k : BitVec 4) :
    ∃ r₃, carve (bookkeep r₂ v k) = some r₃ ∧ Settled { r₃ with prevSym := v } (v :: (a ++ b)) := by
  obtain ⟨hlen, hn⟩ := promoted_order_full hw h
  obtain ⟨r₃, hcarve, hnext, hprev, hhead, -, hlen0, hlens, hheads, hbkt0, hbkts⟩ :=
    carve_of_path (r := bookkeep r₂ v k) hlen hn h₂.next
  refine ⟨r₃, hcarve, settled_of_partition hw h h₂ hnext hprev hhead rfl fun ho => ?_⟩
  have hfront : r₃.head.read 0 = some v := hhead.trans h₂.next.1
  exact partition_canonical hlen0 hlens (by rw [ho]; exact hfront) (by rw [ho]; exact hheads) (by rw [ho]; exact hbkt0)
    (by rw [ho]; exact hbkts)

include hq in
/-- `BOOKKEEP` and the rebalance test (R106, R107) go through and settle the structure. -/
theorem settleBuckets_settles : ∃ r₃, settleBuckets r₂ v (r.bkt.read v) = some r₃ ∧
    Settled { r₃ with prevSym := v } (v :: (a ++ b)) := by
  unfold settleBuckets
  split
  · next hk => exact ⟨r₂, rfl, settled_within_front hw hq h h₂ hk⟩
  · next hk =>
    dsimp only
    split
    · exact settled_by_carve hw h h₂ _
    · next hcarve => exact ⟨_, rfl, settled_by_bookkeep hw hq h h₂ hk hcarve⟩

end

/-! ### The step -/

theorem moveToFront_prevSym {r : RankStructure} (hw : r.WF) : moveToFront r.order r.prevSym = r.order := by
  obtain ⟨o, ho⟩ := order_starts_with_prevSym hw
  rw [moveToFront, ho, List.erase_cons_head]

theorem idxOf_prevSym {r : RankStructure} (hw : r.WF) : r.order.idxOf r.prevSym = 0 := by
  obtain ⟨o, ho⟩ := order_starts_with_prevSym hw
  rw [ho, List.idxOf_cons_self]

/-- The forward step answers the symbol's position and moves the symbol to the front; the structure stays well-formed
within the quiescent bounds (R100, R109, R111, R112). -/
theorem fstep_settles {r : RankStructure} (hw : r.WF) (hq : r.Quiescent) (v : Byte) :
    ∃ r', fstep r v = some (trunc8 (r.order.idxOf v), r') ∧ Settled r' (moveToFront r.order v) := by
  by_cases hv : v = r.prevSym
  · subst hv
    exact ⟨r, by simp [fstep, idxOf_prevSym hw, trunc8], (moveToFront_prevSym hw).symm, hw, hq⟩
  · obtain ⟨a, b, h⟩ := exists_located hw hv
    obtain ⟨r₂, h₂, hpromote⟩ := promote_eq hw.1 h
    obtain ⟨r₃, hsettle, hsettled⟩ := settleBuckets_settles hw hq h h₂
    rw [hsettle, Option.map_some] at hpromote
    exact ⟨_, by simp only [fstep, if_neg hv, h.rankQuery_eq hw, hpromote], h.moveToFront_eq ▸ hsettled⟩

/-- The loop of `MTF.FWD` meets no broken structure (R111): it succeeds, and leaves the structure well-formed. -/
theorem fwdLoop_succeeds {r : RankStructure} (hw : r.WF) (hq : r.Quiescent) (count i : Nat) (m : Memory) :
    ∃ r' m', fwdLoop count i r m = (true, r', m') ∧ r'.WF ∧ r'.Quiescent := by
  induction count generalizing r i m with
  | zero => exact ⟨r, m, rfl, hw, hq⟩
  | succ count ih =>
    obtain ⟨r', hstep, -, hw', hq'⟩ := fstep_settles hw hq (m.readByte i)
    simp only [fwdLoop, hstep]
    exact ih hw' hq' _ _

/-- The loop of `MTF.INV` keeps a permutation (41_mtf_inverse.md R124). -/
theorem invLoop_permutation {idx : Table 8 Byte} (h : IdxPermutation idx) (count i : Nat) (m : Memory) :
    IdxPermutation (invLoop count i idx m).1 := by
  induction count generalizing idx i m with
  | zero => exact h
  | succ count ih => exact ih (istep_permutation h _) _ _

end Sys2Proof.Machine
end

section
/-! PROOFS. What a command and what a step can do: one case per way a command ends, and one per event of the port. -/

namespace Sys2Proof.Machine

open Claims

/-! ### Commands -/

/-- How the command `i` can end when it starts in the given state: the state its row of 10_state.md R43 writes, ended by
a response. -/
inductive Effect (s : State) : Instr → State → Prop
  | nop : Effect s .nop (s.complete 0)
  /-- An error that writes no state of the core but `STATUS`: the fault lock (R199) and the refusals of the operands,
  `SIZE` and the configuration. -/
  | refused {i : Instr} (c : Code) (hi : ignoresFault i = false) : Effect s i (s.raise c)
  | setsize (n : Data) : Effect s (.mtfSetsize n) ({ s with size := n }.complete 0)
  | fbegin : Effect s .mtfFbegin ({ s with rank := resetbal s.rank }.complete 0)
  | fsym {v k : Byte} {r : RankStructure} (hstep : fstep s.rank v = some (k, r)) :
      Effect s (.mtfFsym v) ({ s with rank := r }.complete (zext24 k))
  | fsymFault {v : Byte} (hstep : fstep s.rank v = none) : Effect s (.mtfFsym v) s.raiseInternal
  | fwd {len : Data} {r : RankStructure} {m : Memory}
      (hloop : fwdLoop (traversal s.size len).toNat 0 (resetbal s.rank) s.buf = (true, r, m)) :
      Effect s (.mtfFwd len) ({ s with rank := r, buf := m }.complete (traversal s.size len))
  | fwdFault {len : Data} {r : RankStructure} {m : Memory}
      (hloop : fwdLoop (traversal s.size len).toNat 0 (resetbal s.rank) s.buf = (false, r, m)) :
      Effect s (.mtfFwd len) { s with rank := r, buf := m }.raiseInternal
  | ibegin : Effect s .mtfIbegin ({ s with idx := identityIdx }.complete 0)
  | isym (k : Byte) :
      Effect s (.mtfIsym k) ({ s with idx := (istep s.idx k).2 }.complete (zext24 (istep s.idx k).1))
  | inv {len : Data} {idx : Table 8 Byte} {m : Memory}
      (hloop : invLoop (traversal s.size len).toNat 0 identityIdx s.buf = (idx, m)) :
      Effect s (.mtfInv len) ({ s with idx := idx, buf := m }.complete (traversal s.size len))
  | rgeCfg {signed : Bool} {l : Byte} (hl : legalLogBase l = true) :
      Effect s (.rgeCfg signed l) ({ s with enc := constructed signed l }.complete 0)
  | rgeEnc {v : Byte} {ech : OutChannel} (hwrite : writeCodeword s.enc v s.ech = (true, ech)) :
      Effect s (.rgeEnc v) ({ s with ech := ech }.complete 0)
  | rgeEncFails {v : Byte} {ech : OutChannel} (hwrite : writeCodeword s.enc v s.ech = (false, ech)) :
      Effect s (.rgeEnc v) ({ s with ech := ech }.raise .io)
  | rgdCfg {signed : Bool} {l : Byte} (hl : legalLogBase l = true) :
      Effect s (.rgdCfg signed l) ({ s with dec := constructed signed l }.complete 0)
  | rgdDec {v : Byte} {dch : InChannel}
      (hparse : parseCodeword s.dec.signed s.dec.logBase.toNat s.dch = (some v, dch)) :
      Effect s .rgdDec ({ s with dch := dch }.complete (zext24 v))
  | rgdDecFails {dch : InChannel}
      (hparse : parseCodeword s.dec.signed s.dec.logBase.toNat s.dch = (none, dch)) :
      Effect s .rgdDec ({ s with dch := dch }.raise .io)
  | rdcsr (k : Byte) (c : Code) (data : Data) : Effect s (.rdcsr k) (s.respond c data)

theorem effect_unlessLocked {s t : State} {i : Instr} (h : Effect s i t) (hi : ignoresFault i = false := by rfl) :
    Effect s i (s.unlessLocked t) := by
  obtain ⟨-, hl⟩ | ⟨-, hl⟩ := s.unlessLocked_cases t <;> rw [hl]
  · exact .refused _ hi
  · exact h

theorem exec_effect (i : Instr) (s : State) : ∃ t, exec i s = .next t ∧ Effect s i t := by
  cases i with
  | nop => exact ⟨_, rfl, .nop⟩
  | mtfSetsize n => exact ⟨_, rfl, effect_unlessLocked (.setsize n)⟩
  | mtfFwd len =>
    refine ⟨_, rfl, effect_unlessLocked ?_⟩
    split
    · exact .refused _ rfl
    · split
      · next hloop => exact .fwd hloop
      · next hloop => exact .fwdFault hloop
  | mtfInv len =>
    refine ⟨_, rfl, effect_unlessLocked ?_⟩
    split
    · exact .refused _ rfl
    · exact .inv rfl
  | mtfFbegin => exact ⟨_, rfl, effect_unlessLocked .fbegin⟩
  | mtfFsym v =>
    refine ⟨_, rfl, effect_unlessLocked ?_⟩
    split
    · next hstep => exact .fsymFault hstep
    · next hstep => exact .fsym hstep
  | mtfIbegin => exact ⟨_, rfl, effect_unlessLocked .ibegin⟩
  | mtfIsym k => exact ⟨_, rfl, effect_unlessLocked (.isym k)⟩
  | rgeCfg signed l =>
    refine ⟨_, rfl, effect_unlessLocked ?_⟩
    split
    · next h => exact .rgeCfg (Bool.and_eq_true_iff.mp h).2
    · exact .refused _ rfl
  | rgeEnc v =>
    refine ⟨_, rfl, effect_unlessLocked ?_⟩
    split
    · split
      · next hwrite => exact .rgeEnc hwrite
      · next hwrite => exact .rgeEncFails hwrite
    · exact .refused _ rfl
  | rgdCfg signed l =>
    refine ⟨_, rfl, effect_unlessLocked ?_⟩
    split
    · next h => exact .rgdCfg (Bool.and_eq_true_iff.mp h).2
    · exact .refused _ rfl
  | rgdDec =>
    refine ⟨_, rfl, effect_unlessLocked ?_⟩
    split
    · split
      · next hparse => exact .rgdDec hparse
      · next hparse => exact .rgdDecFails hparse
    · exact .refused _ rfl
  | rdcsr k =>
    refine ⟨_, rfl, ?_⟩
    split <;> exact .rdcsr k _ _

theorem effect_of_exec {s t : State} {i : Instr} (h : exec i s = .next t) : Effect s i t := by
  obtain ⟨u, hu, heffect⟩ := exec_effect i s
  obtain rfl : u = t := Host.Outcome.next.inj (hu.symm.trans h)
  exact heffect

/-! ### Steps -/

/-- What the step does for the event `e` at the front of the port, `rest` waiting behind it. -/
inductive PortEffect (s : State) (rest : List PortEvent) : PortEvent → State → Prop
  | command {w : Word} {i : Instr} {t : State} (hd : decode w = .ok i) (heffect : Effect (s.accept w rest) i t) :
      PortEffect s rest (.command w) t
  | rejected (w : Word) : PortEffect s rest (.command w) ((s.accept w rest).rejectWord w)
  | reset : PortEffect s rest .reset ({ s with port := rest }.applyReset)
  | cut {w : Word} {i : Instr} (n : Nat) (hd : decode w = .ok i) :
      PortEffect s rest (.commandCut w n) ((s.accept w rest).cutCommand i n).applyReset
  | cutRejected (w : Word) (n : Nat) : PortEffect s rest (.commandCut w n) (s.accept w rest).applyReset
  | fillBuf (a : Data) (v : Byte) : PortEffect s rest (.fillBuf a v) ({ s with port := rest }.fillBuf a v)
  | appendEch (bs : List Bool) : PortEffect s rest (.appendEch bs) ({ s with port := rest }.appendEch bs)
  | supplyDch (bs : List Bool) : PortEffect s rest (.supplyDch bs) ({ s with port := rest }.supplyDch bs)
  | moveDch (pos : Nat) : PortEffect s rest (.moveDch pos) ({ s with port := rest }.moveDch pos)
  | answerCalls (ech dch : List Bool) :
      PortEffect s rest (.answerCalls ech dch) ({ s with port := rest }.answerCalls ech dch)

theorem step_portEffect {s : State} {e : PortEvent} {rest : List PortEvent} (hp : s.port = e :: rest) :
    ∃ t, step s = .next t ∧ PortEffect s rest e t := by
  cases e with
  | command w =>
    cases hd : decode w with
    | ok i =>
      obtain ⟨t, ht, heffect⟩ := exec_effect i (s.accept w rest)
      exact ⟨t, (step_of_decode_ok hp hd).trans ht, .command hd heffect⟩
    | error _ => exact ⟨_, step_of_decode_error hp hd, .rejected w⟩
  | commandCut w n =>
    cases hd : decode w with
    | ok i => exact ⟨_, by simp only [step, hp, hd], .cut n hd⟩
    | error _ => exact ⟨_, by simp only [step, hp, hd], .cutRejected w n⟩
  | reset => exact ⟨_, by simp only [step, hp], .reset⟩
  | fillBuf a v => exact ⟨_, by simp only [step, hp], .fillBuf a v⟩
  | appendEch bs => exact ⟨_, by simp only [step, hp], .appendEch bs⟩
  | supplyDch bs => exact ⟨_, by simp only [step, hp], .supplyDch bs⟩
  | moveDch pos => exact ⟨_, by simp only [step, hp], .moveDch pos⟩
  | answerCalls ech dch => exact ⟨_, by simp only [step, hp], .answerCalls ech dch⟩

/-- An idle step keeps the state (60_exceptions.md R201); every other step does the event at the front of the port. -/
theorem step_cases {s t : State} (h : step s = .next t) :
    s.port = [] ∧ t = s ∨ ∃ e rest, s.port = e :: rest ∧ PortEffect s rest e t := by
  cases hp : s.port with
  | nil =>
    have hidle : step s = .next s := by simp only [step, hp]
    exact .inl ⟨rfl, (Host.Outcome.next.inj (hidle.symm.trans h)).symm⟩
  | cons e rest =>
    obtain ⟨u, hu, heffect⟩ := step_portEffect hp
    obtain rfl : u = t := Host.Outcome.next.inj (hu.symm.trans h)
    exact .inr ⟨e, rest, rfl, heffect⟩

end Sys2Proof.Machine
end

section
/-! PROOFS. The state (10_state.md): what each command leaves unchanged (R42, R43), what reset restores (R41), that only
reset clears `FAULT` (R39), and that every step keeps the invariant (R34, R35). -/

namespace Sys2Proof.Machine

open Claims

/-! ### What a command leaves unchanged (R43) -/

/-- A traversal stays inside the buffer space (20_memory.md R56). -/
theorem traversal_le_bufSize (size len : Data) : 0 + (traversal size len).toNat ≤ Config.bufSize := by
  rw [Nat.zero_add]
  exact (traversal size len).isLt.le

theorem writeCodeword_isPresent (c : CodecConfig) (v : Byte) (ech : OutChannel) :
    (writeCodeword c v ech).2.isPresent = ech.isPresent := by
  unfold writeCodeword
  obtain ⟨-, e⟩ | ⟨-, e⟩ := writeBits_cases ech (codeword c.signed c.logBase.toNat v).1
    (codeword c.signed c.logBase.toNat v).2 <;> rw [e]

namespace Effect

variable {s t : State} {i : Instr} (h : Effect s i t)
include h

theorem rank_eq (hi : isForward i = false) : t.rank = s.rank := by
  cases h with
  | fbegin | fsym | fwd | fwdFault => cases hi
  | _ => rfl

theorem idx_eq (hi : isInverse i = false) : t.idx = s.idx := by
  cases h with
  | ibegin | isym | inv => cases hi
  | _ => rfl

theorem size_eq (hi : ∀ n, i ≠ .mtfSetsize n) : t.size = s.size := by
  cases h with
  | setsize n => exact absurd rfl (hi n)
  | _ => rfl

theorem enc_eq (hi : ∀ signed l, i ≠ .rgeCfg signed l) : t.enc = s.enc := by
  cases h with
  | rgeCfg => exact absurd rfl (hi _ _)
  | _ => rfl

theorem dec_eq (hi : ∀ signed l, i ≠ .rgdCfg signed l) : t.dec = s.dec := by
  cases h with
  | rgdCfg => exact absurd rfl (hi _ _)
  | _ => rfl

theorem ech_eq (hi : ∀ v, i ≠ .rgeEnc v) : t.ech = s.ech := by
  cases h with
  | rgeEnc | rgeEncFails => exact absurd rfl (hi _)
  | _ => rfl

theorem dch_eq (hi : i ≠ .rgdDec) : t.dch = s.dch := by
  cases h with
  | rgdDec | rgdDecFails => exact absurd rfl hi
  | _ => rfl

/-- No command attaches or detaches the output channel (20_memory.md R66). -/
theorem ech_isPresent : t.ech.isPresent = s.ech.isPresent := by
  cases h with
  | @rgeEnc v ech hwrite | @rgeEncFails v ech hwrite =>
    have hpresent := writeCodeword_isPresent s.enc v s.ech
    rwa [hwrite] at hpresent
  | _ => rfl

/-- No command attaches or detaches the input channel, supplies bits to it or moves its cursor back. -/
theorem dch_after : s.dch.After t.dch := by
  cases h with
  | rgdDec hparse | rgdDecFails hparse =>
    have hafter := parseCodeword_after s.dec.signed s.dec.logBase.toNat s.dch
    rwa [hparse] at hafter
  | _ => exact .refl _

theorem status_le (hi : ∀ k, i ≠ .rdcsr k) : t.status.toNat ≤ 6 := by
  cases h with
  | rdcsr k => exact absurd rfl (hi k)
  | _ => exact codeBits_toNat_le _

theorem status_of_rdcsr (hi : ∃ k, i = .rdcsr k) : t.status = s.status := by
  obtain ⟨k, rfl⟩ := hi
  cases h with
  | refused c hi => cases hi
  | rdcsr => rfl

/-- `FAULT` changes by the error entry of a forward step only, which sets it (40_mtf_forward.md R101). -/
theorem faultFlag_cases : t.faultFlag = s.faultFlag ∨ isForward i = true ∧ t.faultFlag = true ∧ t.status = 5 := by
  cases h with
  | fsymFault | fwdFault => exact .inr ⟨rfl, rfl, rfl⟩
  | _ => exact .inl rfl

theorem faultFlag_stays (hf : s.faultFlag = true) : t.faultFlag = true := by
  obtain hsame | ⟨-, hset, -⟩ := h.faultFlag_cases
  · rwa [hsame]
  · exact hset

theorem buf_eq (hi : isBlock i = false) : t.buf = s.buf := by
  cases h with
  | fwd | fwdFault | inv => cases hi
  | _ => rfl

/-- A command keeps the buffer's canonical form. -/
theorem buf_wf (hbuf : s.buf.wf) : t.buf.wf := by
  cases h with
  | @fwd len _ _ hloop | @fwdFault len _ _ hloop =>
    have hframe := (fwdLoop_frame _ 0 (resetbal s.rank) hbuf (traversal_le_bufSize s.size len)).1
    rwa [hloop] at hframe
  | @inv len _ _ hloop =>
    have hframe := (invLoop_frame _ 0 identityIdx hbuf (traversal_le_bufSize s.size len)).1
    rwa [hloop] at hframe
  | _ => exact hbuf

/-- A block command writes no byte at or above its traversal length (R115, R126). -/
theorem readByte_of_traversal_le {len : Data} (hi : i = .mtfFwd len ∨ i = .mtfInv len) (hbuf : s.buf.wf) {a : Nat}
    (ha : (traversal s.size len).toNat ≤ a) : t.buf.readByte a = s.buf.readByte a := by
  obtain rfl | rfl := hi
  · cases h with
    | refused => rfl
    | fwd hloop | fwdFault hloop =>
      have hframe := (fwdLoop_frame _ 0 (resetbal s.rank) hbuf (traversal_le_bufSize s.size len)).2 a (by omega)
      rwa [hloop] at hframe
  · cases h with
    | refused => rfl
    | inv hloop =>
      have hframe := (invLoop_frame _ 0 identityIdx hbuf (traversal_le_bufSize s.size len)).2 a (by omega)
      rwa [hloop] at hframe

theorem port_eq : t.port = s.port := by cases h <;> rfl

theorem arg_eq : t.arg = s.arg := by cases h <;> rfl

end Effect

/-! ### The two engines (R42) -/

/-- A change of the state that the fault lock and its error entry do not see goes through the lock. -/
theorem unlessLocked_map (f : State → State) {s t t' : State} (ht : t' = f t)
    (hf : (f s).faultFlag = s.faultFlag := by rfl)
    (hraise : (f s).raise .internal = f (s.raise .internal) := by rfl) :
    (f s).unlessLocked t' = f (s.unlessLocked t) := by
  subst ht
  unfold State.unlessLocked
  rw [hf, hraise]
  split <;> rfl

/-- The state with another `IDX`. -/
def withIdx (idx : Table 8 Byte) (s : State) : State := { s with idx := idx }

/-- The state with another rank structure. -/
def withRank (r : RankStructure) (s : State) : State := { s with rank := r }

theorem exec_forward_withIdx {i : Instr} (hi : isForward i = true) {s t : State} (h : exec i s = .next t)
    (idx : Table 8 Byte) : exec i (withIdx idx s) = .next (withIdx idx t) := by
  cases i with
  | mtfFbegin =>
    cases h
    refine congrArg Host.Outcome.next (unlessLocked_map (withIdx idx) ?_)
    rfl
  | mtfFsym v =>
    cases h
    refine congrArg Host.Outcome.next (unlessLocked_map (withIdx idx) ?_)
    dsimp only [withIdx]
    split <;> rfl
  | mtfFwd len =>
    cases h
    refine congrArg Host.Outcome.next (unlessLocked_map (withIdx idx) ?_)
    rw [apply_ite (withIdx idx)]
    refine if_congr Iff.rfl rfl ?_
    dsimp only [withIdx]
    split <;> rfl
  | _ => cases hi

theorem exec_inverse_withRank {i : Instr} (hi : isInverse i = true) {s t : State} (h : exec i s = .next t)
    (r : RankStructure) : exec i (withRank r s) = .next (withRank r t) := by
  cases i with
  | mtfIbegin | mtfIsym k =>
    cases h
    refine congrArg Host.Outcome.next (unlessLocked_map (withRank r) ?_)
    rfl
  | mtfInv len =>
    cases h
    refine congrArg Host.Outcome.next (unlessLocked_map (withRank r) ?_)
    rw [apply_ite (withRank r)]
    exact if_congr Iff.rfl rfl rfl
  | _ => cases hi

theorem isInverse_of_isForward {i : Instr} (hi : isForward i = true) : isInverse i = false := by
  cases i with
  | mtfFbegin | mtfFsym v | mtfFwd len => rfl
  | _ => cases hi

theorem isForward_of_isInverse {i : Instr} (hi : isInverse i = true) : isForward i = false := by
  cases i with
  | mtfIbegin | mtfIsym k | mtfInv len => rfl
  | _ => cases hi

/-! ### Reset (R41) -/

theorem ne_zero_of_one_le_toNat {w : Nat} {x : BitVec w} (h : 1 ≤ x.toNat) : x ≠ 0 := by
  rintro rfl
  simp at h

/-- The canonical rank structure has the values of the table of R41. -/
theorem canonical_canonicalTable : CanonicalTable RankStructure.canonical where
  next_inner v hv := by
    have hne : v ≠ 255 := fun e => absurd hv (by rw [e]; decide)
    simp only [RankStructure.canonical, chainNext, Table.read_tabulate, if_neg hne]
  next_last := by simp [RankStructure.canonical, chainNext]
  prev_inner v hv := by
    have hne := ne_zero_of_one_le_toNat hv
    simp only [RankStructure.canonical, chainPrev, Table.read_tabulate, if_neg hne]
  prev_first := by simp [RankStructure.canonical, chainPrev]
  head_zero := by simp [RankStructure.canonical]
  head_rest k hk := by
    have hne := ne_zero_of_one_le_toNat hk
    simp only [RankStructure.canonical, Table.read_tabulate, if_neg hne]
  len_zero := by simp [RankStructure.canonical]
  len_rest k hk := by
    have hne := ne_zero_of_one_le_toNat hk
    simp only [RankStructure.canonical, Table.read_tabulate, if_neg hne]
  bkt_zero := by simp [RankStructure.canonical]
  bkt_rest v hv := by
    have hne := ne_zero_of_one_le_toNat hv
    have hlt := v.isLt
    simp only [RankStructure.canonical, Table.read_tabulate, if_neg hne, BitVec.toNat_ofNat]
    omega
  prevSym_zero := rfl

theorem applyReset_resetTable (s : State) : ResetTable s.applyReset where
  rank := canonical_canonicalTable
  idx := identityIdx_read
  size := rfl
  enc := ⟨rfl, rfl, rfl⟩
  dec := ⟨rfl, rfl, rfl⟩
  status := rfl
  fault := rfl

/-! ### The invariant (R34, R35, R32, R36, R37, R39) -/

theorem unset_legal : CodecConfig.unset.Legal := fun h => nomatch h

theorem constructed_legal (signed : Bool) {l : Byte} (hl : legalLogBase l = true) : (constructed signed l).Legal :=
  fun _ => (constructed_logBase signed hl).symm ▸ ((legalLogBase_iff l).mp hl).1

/-- Reset establishes the invariant, whatever the core's state was. -/
theorem applyReset_inv {s : State} (hbuf : s.buf.wf) : s.applyReset.Inv :=
  ⟨canonical_wf.1, canonical_wf.2, identityIdx_permutation, unset_legal, unset_legal, rfl, hbuf⟩

theorem Effect.inv_stays {s t : State} {i : Instr} (h : Effect s i t) (hs : s.Inv) : t.Inv := by
  have ⟨hw, hq, hidx, henc, hdec, hfault, hbuf⟩ := hs
  have hbuf' := h.buf_wf hbuf
  have hfwd := fun len => fwdLoop_succeeds canonical_wf.1 canonical_wf.2 (traversal s.size len).toNat 0 s.buf
  cases h with
  | nop | refused | setsize | rgeEnc | rgeEncFails | rgdDec | rgdDecFails | rdcsr => exact hs
  | fbegin =>
    exact ⟨resetbal_eq s.rank ▸ canonical_wf.1, resetbal_eq s.rank ▸ canonical_wf.2, hidx, henc, hdec, hfault, hbuf'⟩
  | @fsym v k r hstep =>
    obtain ⟨r', hstep', hsettled⟩ := fstep_settles hw hq v
    obtain ⟨-, rfl⟩ := Prod.mk.inj (Option.some.inj (hstep.symm.trans hstep'))
    exact ⟨hsettled.wf, hsettled.quiescent, hidx, henc, hdec, hfault, hbuf'⟩
  | @fsymFault v hstep =>
    obtain ⟨r', hstep', -⟩ := fstep_settles hw hq v
    cases hstep.symm.trans hstep'
  | @fwd len r m hloop =>
    obtain ⟨r', m', hloop', hw', hq'⟩ := hfwd len
    rw [resetbal_eq, hloop'] at hloop
    cases hloop
    exact ⟨hw', hq', hidx, henc, hdec, hfault, hbuf'⟩
  | @fwdFault len r m hloop =>
    obtain ⟨r', m', hloop', -⟩ := hfwd len
    rw [resetbal_eq, hloop'] at hloop
    cases hloop
  | ibegin => exact ⟨hw, hq, identityIdx_permutation, henc, hdec, hfault, hbuf'⟩
  | isym k => exact ⟨hw, hq, istep_permutation hidx k, henc, hdec, hfault, hbuf'⟩
  | @inv len idx m hloop =>
    have hidx' := invLoop_permutation identityIdx_permutation (traversal s.size len).toNat 0 s.buf
    rw [hloop] at hidx'
    exact ⟨hw, hq, hidx', henc, hdec, hfault, hbuf'⟩
  | rgeCfg hl => exact ⟨hw, hq, hidx, constructed_legal _ hl, hdec, hfault, hbuf'⟩
  | rgdCfg hl => exact ⟨hw, hq, hidx, henc, constructed_legal _ hl, hfault, hbuf'⟩

/-- What a command cut short by reset has written keeps the buffer's canonical form (70_reset_and_hazards.md R212). -/
theorem cutCommand_buf_wf {s : State} (hbuf : s.buf.wf) (i : Instr) (n : Nat) : (s.cutCommand i n).buf.wf := by
  have hbound : ∀ len, 0 + min n (traversal s.size len).toNat ≤ Config.bufSize := fun len =>
    le_trans (by omega) (traversal_le_bufSize s.size len)
  unfold State.cutCommand
  split
  · exact hbuf
  · cases i with
    | mtfFwd len =>
      dsimp only
      split
      · exact hbuf
      · exact (fwdLoop_frame _ 0 _ hbuf (hbound len)).1
    | mtfInv len =>
      dsimp only
      split
      · exact hbuf
      · exact (invLoop_frame _ 0 _ hbuf (hbound len)).1
    | rgeEnc v | rgdDec =>
      dsimp only
      split <;> exact hbuf
    | _ => exact hbuf

theorem PortEffect.inv_stays {s t : State} {e : PortEvent} {rest : List PortEvent} (h : PortEffect s rest e t)
    (hs : s.Inv) : t.Inv := by
  have ⟨hw, hq, hidx, henc, hdec, hfault, hbuf⟩ := hs
  cases h with
  | command _ heffect => exact heffect.inv_stays hs
  | rejected w =>
    rw [State.rejectWord_eq]
    exact hs
  | reset => exact applyReset_inv hbuf
  | @cut w i n => exact applyReset_inv (cutCommand_buf_wf (s := s.accept w rest) hbuf i n)
  | cutRejected w n => exact applyReset_inv hbuf
  | fillBuf a v => exact ⟨hw, hq, hidx, henc, hdec, hfault, Memory.wf_writeByte hbuf a.isLt v⟩
  | appendEch | supplyDch | moveDch | answerCalls => exact hs

end Sys2Proof.Machine

namespace Sys2Proof.Claims

open Machine

/-- Settles O45, by cases on what the step does; the forward step of a well-formed structure never fails. -/
theorem stepKeepsTheInvariant : Obligations.StepKeepsTheInvariant := by
  intro s t hs hstep
  obtain ⟨-, rfl⟩ | ⟨_, _, -, heffect⟩ := step_cases hstep
  · exact hs
  · exact heffect.inv_stays hs

/-- Settles O8: reset writes the canonical structure, which is what `RESETBAL` gives from any state. -/
theorem resetRestoresTheCore : Obligations.ResetRestoresTheCore := fun s =>
  ⟨applyReset_resetTable s, (resetbal_eq s.rank).symm, canonical_wf.1, fun _ => rfl, rfl, rfl⟩

/-- Settles O39: a command can only set `FAULT`, and the host and the environment do not reach it. -/
theorem onlyResetClearsFault : Obligations.OnlyResetClearsFault := by
  intro s t hstep hf
  obtain ⟨-, rfl⟩ | ⟨e, rest, hp, heffect⟩ := step_cases hstep
  · exact .inl hf
  · cases heffect with
    | command _ heffect => exact .inl (heffect.faultFlag_stays hf)
    | rejected w =>
      rw [State.rejectWord_eq]
      exact .inl hf
    | reset => exact .inr ⟨rest, .inl hp⟩
    | cut | cutRejected => exact .inr ⟨rest, .inr ⟨_, _, hp⟩⟩
    | fillBuf | appendEch | supplyDch | moveDch | answerCalls => exact .inl hf

/-- Settles O42: each engine's commands leave the other's state, and commute with replacing it. -/
theorem enginesShareNoState : Obligations.EnginesShareNoState :=
  ⟨fun _ _ _ idx hi h =>
      ⟨(effect_of_exec h).idx_eq (isInverse_of_isForward hi), exec_forward_withIdx hi h idx⟩,
    fun _ _ _ r hi h =>
      ⟨(effect_of_exec h).rank_eq (isForward_of_isInverse hi), exec_inverse_withRank hi h r⟩⟩

/-- Settles O43, field by field from the ways a command can end. -/
theorem commandsWriteOnlyTheirRow : Obligations.CommandsWriteOnlyTheirRow := by
  intro i s t hexec
  have h := effect_of_exec hexec
  have ⟨hdchPresent, hdchBits, _⟩ := h.dch_after
  exact ⟨h.rank_eq, h.idx_eq, h.size_eq, h.enc_eq, h.dec_eq, h.ech_eq, h.dch_eq,
    ⟨h.ech_isPresent, hdchPresent, hdchBits⟩, h.status_le, h.status_of_rdcsr,
    h.faultFlag_cases.imp_right fun ⟨hi, _, hstatus⟩ => ⟨hi, hstatus⟩,
    fun hi a => by rw [h.buf_eq hi], fun _ hi hbuf _ ha => h.readByte_of_traversal_le hi hbuf ha,
    h.port_eq, h.arg_eq⟩

/-- Settles O7: the reset state is what reset makes of itself. -/
theorem resetStateHasTheTableValues : Obligations.ResetStateHasTheTableValues := applyReset_resetTable State.reset

/-- Settles O44: the reset state is what reset makes of itself, and its empty `BUF` is canonical. -/
theorem invariantHoldsAtReset : Obligations.InvariantHoldsAtReset := applyReset_inv (s := State.reset) Memory.wf_nil

end Sys2Proof.Claims
end

section
/-! PROOFS. What the host and the environment do between commands (20_memory.md R51, R58, R62; 70_reset_and_hazards.md
R217): each event of the port that issues no command reaches only `BUF` or a channel. -/

namespace Sys2Proof.Machine

/-- With nothing in the port the core is idle (60_exceptions.md R201). -/
theorem step_of_port_nil {s : State} (hp : s.port = []) : step s = .next s := by
  obtain ⟨t, ht⟩ := step_next s
  obtain ⟨-, rfl⟩ | ⟨e, rest, hcons, -⟩ := step_cases ht
  · exact ht
  · cases hp.symm.trans hcons

/-- An event with one possible effect has it. -/
theorem step_eq_of_portEffect {s u : State} {e : PortEvent} {rest : List PortEvent} (hp : s.port = e :: rest)
    (honly : ∀ t, PortEffect s rest e t → t = u) : step s = .next u := by
  obtain ⟨t, ht, heffect⟩ := step_portEffect hp
  rw [ht, honly t heffect]

/-- The host's fill sets the byte at its address and no other (20_memory.md R51). -/
theorem State.fillBuf_readByte {s : State} (hbuf : s.buf.wf) (a : Data) (v : Byte) (b : Nat) :
    (s.fillBuf a v).buf.readByte b = if b = a.toNat then v else s.buf.readByte b :=
  Memory.readByte_writeByte hbuf.1 a.toNat b v

/-- The host's fill keeps the canonical form of `BUF`: every address it can name lies in the buffer (R56). -/
theorem State.fillBuf_buf_wf {s : State} (hbuf : s.buf.wf) (a : Data) (v : Byte) : (s.fillBuf a v).buf.wf :=
  Memory.wf_writeByte hbuf a.isLt v

end Sys2Proof.Machine

namespace Sys2Proof.Claims

open Machine

/-- Settles O46, event by event: each has one possible effect, and the fill's is a byte written to `BUF`. -/
theorem hostActionsReachOnlyTheSurroundings : Obligations.HostActionsReachOnlyTheSurroundings := by
  intro s rest
  refine ⟨fun a v hp hbuf => ?fillBuf, fun bs hp => ?appendEch, fun bs hp => ?supplyDch, fun hp => ?reset,
    fun pos hp => ?moveDch, fun ech dch hp => ?answerCalls, step_of_port_nil⟩
  case fillBuf =>
    have hstep : step s = .next ({ s with port := rest }.fillBuf a v) :=
      step_eq_of_portEffect hp fun | _, .fillBuf _ _ => rfl
    exact ⟨_, hstep, State.fillBuf_buf_wf hbuf a v, State.fillBuf_readByte hbuf a v⟩
  case appendEch => exact step_eq_of_portEffect hp fun | _, .appendEch _ => rfl
  case supplyDch => exact step_eq_of_portEffect hp fun | _, .supplyDch _ => rfl
  case reset => exact step_eq_of_portEffect hp fun | _, .reset => rfl
  case moveDch => exact step_eq_of_portEffect hp fun | _, .moveDch _ => rfl
  case answerCalls => exact step_eq_of_portEffect hp fun | _, .answerCalls _ _ => rfl

end Sys2Proof.Claims
end

section
/-! PROOFS. The encoding of the commands (30_encoding.md R70 to R77, R83): a command word is an opcode and an operand, the
operand of a command fits the bits its row leaves it, and the decoder and the encoder undo each other. -/

namespace Sys2Proof

/-! ### Words, operands and rows -/

/-- A word determines its two fields (R70). -/
theorem word_inj {op op' : Byte} {arg arg' : Data} : (op ++ arg : Word) = op' ++ arg' ↔ op = op' ∧ arg = arg' := by
  constructor
  · intro h
    have hop := congrArg (BitVec.extractLsb' 24 8) h
    have harg := congrArg (BitVec.extractLsb' 0 24) h
    simp only [BitVec.extractLsb'_append_eq_left, BitVec.extractLsb'_append_eq_right] at hop harg
    exact ⟨hop, harg⟩
  · rintro ⟨rfl, rfl⟩
    rfl

/-- How many low bits of `arg` the operands of the command take; the bits above them must be zero (R71). -/
def Instr.operandBits : Instr → Nat
  | .nop | .mtfFbegin | .mtfIbegin | .rgdDec => 0
  | .mtfSetsize _ | .mtfFwd _ | .mtfInv _ => 24
  | .mtfFsym _ | .mtfIsym _ | .rgeEnc _ | .rdcsr _ => 8
  | .rgeCfg _ _ | .rgdCfg _ _ => 9

theorem toNat_setWidth_le {m : Nat} (n : Nat) (x : BitVec m) : (x.setWidth n).toNat ≤ x.toNat := by
  rw [BitVec.toNat_setWidth]
  exact Nat.mod_le _ _

theorem toNat_setWidth_lt {m : Nat} (n : Nat) (x : BitVec m) : (x.setWidth n).toNat < 2 ^ m :=
  (toNat_setWidth_le n x).trans_lt x.isLt

theorem operand_lt (i : Instr) : i.operand.toNat < 2 ^ i.operandBits := by
  cases i with
  | nop | mtfFbegin | mtfIbegin | rgdDec => decide
  | mtfSetsize n | mtfFwd n | mtfInv n => exact n.isLt
  | mtfFsym b | mtfIsym b | rgeEnc b | rdcsr b => exact toNat_setWidth_lt 24 b
  | rgeCfg signed b | rgdCfg signed b => exact toNat_setWidth_lt 24 (BitVec.ofBool signed ++ b)

theorem zeroAbove_encode (i : Instr) : zeroAbove i.operandBits (encode i) = true := by
  rw [zeroAbove_iff, argField_encode]
  exact operand_lt i

/-! ### Decoding an encoding -/

theorem byteField_of_argField {w : Word} {b : Byte} (h : argField w = b.setWidth 24) : byteField w = b := by
  rw [byteField_eq, h, BitVec.setWidth_setWidth_of_le _ (by decide), BitVec.setWidth_eq]

theorem configFields_of_argField {w : Word} {signed : Bool} {b : Byte}
    (h : argField w = (BitVec.ofBool signed ++ b).setWidth 24) : signedField w = signed ∧ byteField w = b := by
  rw [signedField_eq, byteField_eq, h]
  constructor
  · rw [BitVec.getLsbD_setWidth, BitVec.getLsbD_append]
    simp
  · rw [BitVec.setWidth_setWidth_of_le _ (by decide)]
    exact BitVec.setWidth_append_eq_right

theorem decode_encode {i : Instr} (hwf : i.wellFormed = true) : decode (encode i) = .ok i := by
  have hop : (opField (encode i)).toNat = i.opcode.toNat := congrArg BitVec.toNat (opField_encode i)
  have harg := argField_encode i
  have hzero := zeroAbove_encode i
  cases i with
  | nop | mtfFbegin | mtfIbegin | rgdDec => rfl
  | mtfSetsize n | mtfFwd n | mtfInv n =>
    simp [decode, hop, Instr.opcode, harg, Instr.operand]
  | mtfFsym b | mtfIsym b | rgeEnc b =>
    rw [Instr.operandBits] at hzero
    simp [decode, hop, Instr.opcode, hzero, byteField_of_argField harg]
  | rgeCfg signed b | rgdCfg signed b =>
    rw [Instr.operandBits] at hzero
    simp [decode, hop, Instr.opcode, hzero, configFields_of_argField harg]
  | rdcsr csr =>
    have hcsr : csr.toNat < 4 := of_decide_eq_true hwf
    rw [Instr.operandBits] at hzero
    simp [decode, hop, Instr.opcode, hzero, byteField_of_argField harg, hcsr]

/-! ### What the decoder can answer -/

theorem argField_eq_zero {w : Word} (h : zeroAbove 0 w = true) : argField w = 0 :=
  BitVec.eq_of_toNat_eq (Nat.lt_one_iff.mp ((zeroAbove_iff 0 w).mp h))

theorem toNat_byteField {w : Word} (h : zeroAbove 8 w = true) : (byteField w).toNat = (argField w).toNat := by
  rw [byteField_eq, BitVec.toNat_setWidth, Nat.mod_eq_of_lt ((zeroAbove_iff 8 w).mp h)]

theorem setWidth_setWidth_of_lt {m n : Nat} {x : BitVec n} (h : x.toNat < 2 ^ m) : (x.setWidth m).setWidth n = x := by
  apply BitVec.eq_of_toNat_eq
  rw [BitVec.toNat_setWidth, BitVec.toNat_setWidth, Nat.mod_eq_of_lt h, Nat.mod_eq_of_lt x.isLt]

theorem setWidth_byteField {w : Word} (h : zeroAbove 8 w = true) : (byteField w).setWidth 24 = argField w := by
  rw [byteField_eq, setWidth_setWidth_of_lt ((zeroAbove_iff 8 w).mp h)]

theorem setWidth_configFields {w : Word} (h : zeroAbove 9 w = true) :
    (BitVec.ofBool (signedField w) ++ byteField w).setWidth 24 = argField w := by
  have hfields : BitVec.ofBool (signedField w) ++ byteField w = (argField w).setWidth 9 := by
    rw [signedField_eq, byteField_eq]
    exact (BitVec.setWidth_succ (argField w)).symm
  rw [hfields, setWidth_setWidth_of_lt ((zeroAbove_iff 9 w).mp h)]

/-- The rows of R73 by their opcodes, each with the number of operand bits its mask leaves open (R71). -/
def rowForms : List (Byte × Nat) :=
  [(0x00, 0), (0x01, 24), (0x02, 24), (0x03, 24), (0x04, 0), (0x05, 8), (0x06, 0), (0x07, 8), (0x08, 9), (0x09, 8),
   (0x0A, 9), (0x0B, 0), (0x0C, 8)]

theorem rowForms_opcode_lt : ∀ f ∈ rowForms, f.1.toNat < 0x0D := by decide

theorem rowForms_of_opcode_eq : ∀ f ∈ rowForms, ∀ g ∈ rowForms, f.1 = g.1 → f = g := by decide

theorem form_mem_rowForms (i : Instr) : (i.opcode, i.operandBits) ∈ rowForms := by
  cases i <;> simp [Instr.opcode, Instr.operandBits, rowForms]

/-- What the decoder can answer for a word, and when: a command of the word's two fields, or one of the refusals of R74
and R75. -/
inductive Decoded (w : Word) : Except DecodeError Instr → Prop
  | command {i : Instr} (hwf : i.wellFormed = true) (hop : i.opcode = opField w) (harg : i.operand = argField w) :
      Decoded w (.ok i)
  | reserved (hop : 0x0D ≤ (opField w).toNat) : Decoded w (.error .reservedOpcode)
  | nonzero {n : Nat} (hform : (opField w, n) ∈ rowForms) (harg : 2 ^ n ≤ (argField w).toNat) :
      Decoded w (.error .nonzeroField)
  | csr (hop : opField w = 0x0C) (harg : (argField w).toNat < 2 ^ 8) (hcsr : 4 ≤ (argField w).toNat) :
      Decoded w (.error .csrOutOfRange)

theorem Decoded.of_zeroAbove {w : Word} (i : Instr) (hwf : i.wellFormed = true)
    (hop : (opField w).toNat = i.opcode.toNat) (harg : zeroAbove i.operandBits w = true → i.operand = argField w) :
    Decoded w (if zeroAbove i.operandBits w then .ok i else .error .nonzeroField) := by
  have hopcode : i.opcode = opField w := BitVec.eq_of_toNat_eq hop.symm
  split
  · next h => exact .command hwf hopcode (harg h)
  · next h =>
    rw [zeroAbove_iff, Nat.not_lt] at h
    exact .nonzero (hopcode ▸ form_mem_rowForms i) h

theorem decode_decoded (w : Word) : Decoded w (decode w) := by
  unfold decode
  split
  · next hop => exact .of_zeroAbove .nop rfl hop fun h => (argField_eq_zero h).symm
  · next hop => exact .command rfl (BitVec.eq_of_toNat_eq hop.symm) rfl
  · next hop => exact .command rfl (BitVec.eq_of_toNat_eq hop.symm) rfl
  · next hop => exact .command rfl (BitVec.eq_of_toNat_eq hop.symm) rfl
  · next hop => exact .of_zeroAbove .mtfFbegin rfl hop fun h => (argField_eq_zero h).symm
  · next hop => exact .of_zeroAbove (.mtfFsym _) rfl hop setWidth_byteField
  · next hop => exact .of_zeroAbove .mtfIbegin rfl hop fun h => (argField_eq_zero h).symm
  · next hop => exact .of_zeroAbove (.mtfIsym _) rfl hop setWidth_byteField
  · next hop => exact .of_zeroAbove (.rgeCfg _ _) rfl hop setWidth_configFields
  · next hop => exact .of_zeroAbove (.rgeEnc _) rfl hop setWidth_byteField
  · next hop => exact .of_zeroAbove (.rgdCfg _ _) rfl hop setWidth_configFields
  · next hop => exact .of_zeroAbove .rgdDec rfl hop fun h => (argField_eq_zero h).symm
  · next hop =>
    have hopcode : 0x0C = opField w := BitVec.eq_of_toNat_eq hop.symm
    split
    · next h =>
      have hbyte := toNat_byteField h
      split
      · next hcsr => exact .command (decide_eq_true hcsr) hopcode (setWidth_byteField h)
      · next hcsr => exact .csr hopcode.symm ((zeroAbove_iff 8 w).mp h) (by omega)
    · next h =>
      rw [zeroAbove_iff, Nat.not_lt] at h
      exact .nonzero (hopcode ▸ form_mem_rowForms (.rdcsr 0)) h
  · next hop =>
    simp only [imp_false] at *
    exact .reserved (by omega)

theorem wellFormed_and_encode_of_decode {w : Word} {i : Instr} (h : decode w = .ok i) :
    i.wellFormed = true ∧ encode i = w := by
  have hd := decode_decoded w
  rw [h] at hd
  cases hd with
  | command hwf hop harg => exact ⟨hwf, by rw [encode, hop, harg, opField_append_argField]⟩

end Sys2Proof
end

section
/-! PROOFS. The statements about the encoding: the decoder and the encoder, the rows of the opcode table (30_encoding.md
R73), the illegal words (R74, R75). -/

namespace Sys2Proof.Claims

open Machine

/-! ### The rows of the opcode table (R73) -/

/-- `match` and `mask` of a row form: the mask covers the opcode and the bits above the operand. -/
def rowOf (f : Byte × Nat) : Word × Word := (f.1 ++ (0 : Data), (0xFF : Byte) ++ (BitVec.allOnes 24 <<< f.2 : Data))

theorem tableRows_eq : tableRows = rowForms.map rowOf := by decide

/-- The mask covers the opcode and the bits that must be zero. -/
theorem mask_eq (i : Instr) : i.mask = (0xFF : Byte) ++ (BitVec.allOnes 24 <<< i.operandBits : Data) := by
  cases i <;> (simp only [Instr.mask, Instr.operandBits]; decide)

theorem rowOf_instr (i : Instr) : rowOf (i.opcode, i.operandBits) = (i.matchBits, i.mask) := by
  rw [mask_eq]
  rfl

theorem mem_tableRows (i : Instr) : (i.matchBits, i.mask) ∈ tableRows := by
  rw [tableRows_eq, ← rowOf_instr]
  exact List.mem_map_of_mem (form_mem_rowForms i)

theorem and_highMask_eq_zero_iff (x : Data) (n : Nat) : x &&& (BitVec.allOnes 24 <<< n) = 0 ↔ x.toNat < 2 ^ n := by
  rw [← BitVec.shiftLeft_ushiftRight, ← BitVec.toNat_inj, BitVec.toNat_shiftLeft, BitVec.toNat_ushiftRight,
    Nat.shiftRight_eq_div_pow, Nat.shiftLeft_eq, Nat.mod_eq_of_lt (lt_of_le_of_lt (Nat.div_mul_le_self _ _) x.isLt)]
  simp [Nat.div_eq_zero_iff]

/-- A row selects the words of its opcode whose operand fits the row's operand bits. -/
theorem selects_rowOf_iff (f : Byte × Nat) (w : Word) :
    Selects (rowOf f) w ↔ opField w = f.1 ∧ (argField w).toNat < 2 ^ f.2 := by
  unfold Selects rowOf
  rw [← and_highMask_eq_zero_iff, ← word_inj, ← Laws.RowMatch.word_and, opField_append_argField]

theorem selects_instr_iff (i : Instr) (w : Word) :
    Selects (i.matchBits, i.mask) w ↔ opField w = i.opcode ∧ (argField w).toNat < 2 ^ i.operandBits := by
  rw [← rowOf_instr, selects_rowOf_iff]

theorem selects_of_decode_ok {w : Word} {i : Instr} (h : decode w = .ok i) : Selects (i.matchBits, i.mask) w := by
  obtain ⟨-, rfl⟩ := wellFormed_and_encode_of_decode h
  rw [selects_instr_iff, opField_encode, argField_encode]
  exact ⟨rfl, operand_lt i⟩

theorem selects_of_decode_csrOutOfRange {w : Word} (h : decode w = .error .csrOutOfRange) (csr : Byte) :
    Selects ((Instr.rdcsr csr).matchBits, (Instr.rdcsr csr).mask) w := by
  have hd := decode_decoded w
  rw [h] at hd
  cases hd with
  | csr hop harg => exact (selects_instr_iff (.rdcsr csr) w).mpr ⟨hop, harg⟩

theorem decodes_of_selects {w : Word} {row : Word × Word} (hrow : row ∈ tableRows) (hsel : Selects row w) :
    (∃ i, decode w = .ok i) ∨ decode w = .error .csrOutOfRange := by
  rw [tableRows_eq, List.mem_map] at hrow
  obtain ⟨f, hf, rfl⟩ := hrow
  obtain ⟨hop, harg⟩ := (selects_rowOf_iff f w).mp hsel
  have hd := decode_decoded w
  generalize decode w = r at hd ⊢
  cases hd with
  | @command i => exact .inl ⟨i, rfl⟩
  | csr => exact .inr rfl
  | reserved h => exact absurd h (Nat.not_le.mpr (hop ▸ rowForms_opcode_lt f hf))
  | @nonzero n hform h =>
    obtain rfl := rowForms_of_opcode_eq _ hform f hf hop
    exact absurd harg (Nat.not_lt.mpr h)

theorem row_unique {w : Word} {row row' : Word × Word} (h : row ∈ tableRows) (h' : row' ∈ tableRows)
    (hsel : Selects row w) (hsel' : Selects row' w) : row = row' := by
  rw [tableRows_eq, List.mem_map] at h h'
  obtain ⟨f, hf, rfl⟩ := h
  obtain ⟨g, hg, rfl⟩ := h'
  rw [selects_rowOf_iff] at hsel hsel'
  rw [rowForms_of_opcode_eq f hf g hg (hsel.1.symm.trans hsel'.1)]

/-- Settles O1: the decoder reads back the opcode and, the zero field being zero, the operand. -/
theorem decodeOfEncode : Obligations.DecodeOfEncode := fun _ => decode_encode

/-- Settles O2: a decoded command has both fields of its word. -/
theorem encodeOfDecode : Obligations.EncodeOfDecode := fun _ _ => wellFormed_and_encode_of_decode

/-- Settles O3: a row selects the words of its opcode whose operand fits, and the decoder accepts no others. -/
theorem rowSelection : Obligations.RowSelection := by
  refine ⟨fun w i hd => ⟨selects_of_decode_ok hd, mem_tableRows i⟩, fun w => ⟨?selected, ?decoded⟩,
    fun w row h row' h' => row_unique h h'⟩
  case decoded => exact fun ⟨_, hrow, hsel⟩ => decodes_of_selects hrow hsel
  case selected =>
    rintro (⟨i, hd⟩ | hd)
    · exact ⟨_, mem_tableRows i, selects_of_decode_ok hd⟩
    · exact ⟨_, mem_tableRows (.rdcsr 0), selects_of_decode_csrOutOfRange hd 0⟩

/-- Settles O4, by evaluating the decoder on the twelve words. -/
theorem specWordsDecode : Obligations.SpecWordsDecode := by
  unfold Obligations.SpecWordsDecode
  decide

/-! ### Illegal words (R74, R75) -/

/-- The rows by the kind of their operand, in the spelling of R75. -/
theorem rowForms_kinds : ∀ f ∈ rowForms,
    f.2 = 24 ∨ f.1.toNat ∈ [0x00, 0x04, 0x06, 0x0B] ∧ f.2 = 0 ∨ f.1.toNat ∈ [0x05, 0x07, 0x09, 0x0C] ∧ f.2 = 8 ∨
      f.1.toNat ∈ [0x08, 0x0A] ∧ f.2 = 9 := by decide

theorem illegalWord_of_nonzero {w : Word} {n : Nat} (hform : (opField w, n) ∈ rowForms)
    (harg : 2 ^ n ≤ (argField w).toNat) : IllegalWord w := by
  have hkind := rowForms_kinds _ hform
  rw [argField_toNat] at harg
  rw [opField_toNat] at hkind
  obtain rfl | ⟨hop, rfl⟩ | ⟨hop, rfl⟩ | ⟨hop, rfl⟩ := hkind
  · omega
  · exact .inr (.inl ⟨hop, Nat.one_le_iff_ne_zero.mp harg⟩)
  · exact .inr (.inr (.inl ⟨hop, harg⟩))
  · exact .inr (.inr (.inr (.inl ⟨hop, harg⟩)))

theorem not_illegalWord_encode {i : Instr} (hwf : i.wellFormed = true) : ¬IllegalWord (encode i) := by
  have hop : opOf (encode i) = i.opcode.toNat := by rw [← opField_encode, opField_toNat]
  have harg : argOf (encode i) = i.operand.toNat := by rw [← argField_encode, argField_toNat]
  have hlt := operand_lt i
  rw [IllegalWord, hop, harg]
  cases i with
  | nop | mtfFbegin | mtfIbegin | rgdDec => decide
  | mtfSetsize n | mtfFwd n | mtfInv n => simp [Instr.opcode]
  | mtfFsym b | mtfIsym b | rgeEnc b | rgeCfg signed b | rgdCfg signed b =>
    simpa [Instr.opcode, Instr.operandBits] using hlt
  | rdcsr csr =>
    have hcsr : (Instr.rdcsr csr).operand.toNat < 4 := (toNat_setWidth_le 24 csr).trans_lt (of_decide_eq_true hwf)
    simpa [Instr.opcode, Instr.operandBits] using ⟨hlt, hcsr⟩

/-- The decoder refuses the illegal words ... -/
theorem decode_error_of_illegalWord {w : Word} (h : IllegalWord w) : ∃ e, decode w = .error e := by
  cases hd : decode w with
  | error e => exact ⟨e, rfl⟩
  | ok i =>
    obtain ⟨hwf, rfl⟩ := wellFormed_and_encode_of_decode hd
    exact absurd h (not_illegalWord_encode hwf)

/-- ... and no others. -/
theorem decode_ok_of_not_illegalWord {w : Word} (h : ¬IllegalWord w) : ∃ i, decode w = .ok i := by
  have hd := decode_decoded w
  generalize decode w = r at hd ⊢
  cases hd with
  | @command i => exact ⟨i, rfl⟩
  | reserved hop =>
    rw [opField_toNat] at hop
    exact absurd (.inl hop) h
  | nonzero hform harg => exact absurd (illegalWord_of_nonzero hform harg) h
  | csr hop _ hcsr =>
    rw [opField_eq_iff_opOf] at hop
    rw [argField_toNat] at hcsr
    exact absurd (.inr (.inr (.inr (.inr ⟨hop, hcsr⟩)))) h

theorem rejectWord_eq_ite (s : State) (w : Word) :
    s.rejectWord w = if opOf w = 0x0C then answered s 3 0 else ended s 3 0 :=
  if_congr (opField_eq_iff_opOf w) rfl rfl

/-- Both `CFG` commands refuse a `logBase` outside 1 to 7 (42_rg_encoder.md R136, 43_rg_decoder.md R156). -/
theorem exec_cfg_of_illegal_logBase {s : State} {logBase : Byte} (signed : Bool) (hf : s.faultFlag = false)
    (hl : legalLogBase logBase = false) :
    exec (.rgeCfg signed logBase) s = .next (ended s 1 0) ∧ exec (.rgdCfg signed logBase) s = .next (ended s 1 0) := by
  simp only [exec, execRgeCfg, execRgdCfg, State.unlessLocked_of_clear hf, hl, Bool.and_false]
  exact ⟨rfl, rfl⟩

/-- Settles O5: the decoder refuses exactly the words of R74 and R75, and the commands check `logBase` themselves. -/
theorem illegalWordsAnswerIllegal : Obligations.IllegalWordsAnswerIllegal :=
  ⟨fun s w h => ⟨decode_error_of_illegalWord h, rejectWord_eq_ite s w⟩,
    fun _ _ => ⟨not_illegalWord_encode rfl, not_illegalWord_encode rfl⟩,
    fun _ signed logBase hf hl => exec_cfg_of_illegal_logBase signed hf ((legalLogBase_eq_false logBase).mpr hl),
    fun _ => decode_ok_of_not_illegalWord⟩

end Sys2Proof.Claims
end

section
/-! PROOFS. The codeword of `RGE.ENC` (30_encoding.md R78 to R80): the bits of its one `WriteBits` call are the
zeros of the quotient, the terminator, the remainder and the sign. -/

namespace Sys2Proof.Machine

open Claims

/-- The sign bit of a byte read as two's complement (R13, R80). -/
theorem getLsbD_seven (val : Byte) : val.getLsbD 7 = decide (128 ≤ val.toNat) :=
  val.msb_eq_getLsbD_last.symm.trans val.msb_eq_decide

theorem abs8_toNat (val : Byte) : (abs8 val).toNat = if 128 ≤ val.toNat then 256 - val.toNat else val.toNat := by
  simp only [abs8, getLsbD_seven, decide_eq_true_eq]
  split
  · rw [neg8, BitVec.toNat_ofNat]
    omega
  · rfl

/-- The byte that the encoder splits is the magnitude (42_rg_encoder.md R140). -/
theorem toNat_encoded_byte (signed : Bool) (val : Byte) :
    (if signed then abs8 val else val).toNat = magnitude signed val := by
  cases signed with
  | false => rfl
  | true => simp [magnitude, abs8_toNat]

theorem msbFirst_congr {v v' n : Nat} (h : ∀ j < n, v.testBit j = v'.testBit j) : msbFirst v n = msbFirst v' n := by
  induction n with
  | zero => rfl
  | succ n ih => rw [msbFirst, msbFirst, h n (Nat.lt_succ_self n), ih fun j hj => h j (Nat.lt_succ_of_lt hj)]

/-- The zeros, the terminator and the remainder: the call asks for more bits than the number has, and the terminator is
its highest bit (R78, R79). -/
theorem msbFirst_terminator_add (q logBase : Nat) {r : Nat} (hr : r < 2 ^ logBase) :
    msbFirst (2 ^ logBase + r) (q + 1 + logBase) =
      List.replicate q false ++ [true] ++ (List.range logBase).map fun j => r.testBit (logBase - 1 - j) := by
  have hlt : 2 ^ logBase + r < 2 ^ (1 + logBase) := by
    rw [Nat.pow_add]
    omega
  rw [Nat.add_assoc, msbFirst_of_lt hlt, msbFirst_add, List.append_assoc, ← msbFirst_eq_map]
  congr 2
  · rw [Nat.shiftRight_eq_div_pow, Nat.add_div_left _ (Nat.two_pow_pos _), Nat.div_eq_of_lt hr]
    rfl
  · exact msbFirst_congr fun j hj => Nat.testBit_two_pow_add_gt hj r

/-- The terminator set above the remainder is their sum (42_rg_encoder.md R142). -/
theorem or_terminator_remainder (m logBase : Nat) :
    1 <<< logBase ||| (m &&& (1 <<< logBase - 1)) = 2 ^ logBase + m % 2 ^ logBase := by
  rw [Nat.one_shiftLeft, Nat.and_two_pow_sub_one_eq_mod]
  have h := Nat.two_pow_add_eq_or_of_lt (Nat.mod_lt m (Nat.two_pow_pos logBase)) 1
  rwa [Nat.mul_one, eq_comm] at h

/-- A bit shifted in from below is sent last, as the sign is (R80). -/
theorem msbFirst_shiftLeft_or (v n : Nat) (b : Bool) : msbFirst (v <<< 1 ||| b.toNat) (n + 1) = msbFirst v n ++ [b] := by
  have hsum : v <<< 1 ||| b.toNat = 2 * v + b.toNat := by
    rw [Nat.shiftLeft_eq, Nat.mul_comm]
    exact (Nat.two_pow_add_eq_or_of_lt b.toNat_lt v).symm
  have hlow : (2 * v + b.toNat).testBit 0 = b := by cases b <;> simp
  have hhigh : (2 * v + b.toNat) >>> 1 = v := by
    have := b.toNat_lt
    omega
  rw [hsum, msbFirst_add, hhigh, msbFirst, hlow]
  rfl

/-- The bits of the encoder's call are the codeword, for every `logBase` (R78, R79, R80). -/
theorem msbFirst_codeword (signed : Bool) (logBase : Nat) (val : Byte) :
    msbFirst (codeword signed logBase val).1 (codeword signed logBase val).2 = codewordBits signed logBase val := by
  have hr := Nat.mod_lt (magnitude signed val) (Nat.two_pow_pos logBase)
  rw [codewordBits, ← msbFirst_terminator_add _ logBase hr]
  simp only [codeword, toNat_encoded_byte, or_terminator_remainder, Nat.shiftRight_eq_div_pow]
  split
  · next hv =>
    subst hv
    simp [magnitude, signPart, Nat.one_shiftLeft, Nat.add_comm]
  · next hv =>
    cases signed with
    | false => simp [signPart]
    | true =>
      simp only [if_true, msbFirst_shiftLeft_or, getLsbD_seven]
      rw [signPart, if_pos ⟨rfl, hv⟩]

end Sys2Proof.Machine

namespace Sys2Proof.Claims

open Machine

/-- Settles O28: the one write succeeds, and its bits are the codeword. -/
theorem encAppendsTheCodeword : Obligations.EncAppendsTheCodeword := by
  intro s val hf hvalid hanswer
  obtain ⟨-, hwrite⟩ | ⟨hfail, -⟩ := writeBits_cases s.ech (codeword s.enc.signed s.enc.logBase.toNat val).1
    (codeword s.enc.signed s.enc.logBase.toNat val).2
  · rw [msbFirst_codeword] at hwrite
    simp only [exec, execRgeEnc, State.unlessLocked_of_clear hf, if_pos hvalid, writeCodeword, hwrite]
    rfl
  · exact absurd hfail hanswer

/-- Settles O30: the magnitude 0 has the quotient and the remainder 0, and no sign. -/
theorem zeroCodeword : Obligations.ZeroCodeword := by
  intro signed logBase
  rw [msbFirst_codeword]
  simp [codewordBits, magnitude, signPart]

end Sys2Proof.Claims
end

section
/-! PROOFS. How the commands of the forward engine end (40_mtf_forward.md R95, R110, R115): one equation per ending. -/

namespace Sys2Proof.Machine

open Claims

/-! ### Endings -/

/-- A successful end, in the words of the claims (R72). -/
theorem complete_eq_ended (s : State) (data : Data) : s.complete data = ended s 0 data := rfl

/-- The error entry of a forward step, in the words of the claims (R101). -/
theorem raiseInternal_eq_ended (s : State) : s.raiseInternal = ended { s with faultFlag := true } 5 0 := rfl

/-- The fault lock turns a command of the forward engine away (60_exceptions.md R199). -/
theorem exec_forward_of_locked {i : Instr} (hi : isForward i = true) {s : State} (hf : s.faultFlag = true) :
    exec i s = .next (s.raise .internal) := by
  cases i with
  | mtfFbegin | mtfFsym | mtfFwd => exact congrArg Host.Outcome.next (State.unlessLocked_of_locked hf _)
  | _ => cases hi

section
variable {s : State} (hf : s.faultFlag = false)
include hf

theorem exec_mtfFbegin_of_clear :
    exec .mtfFbegin s = .next (ended { s with rank := RankStructure.canonical } 0 0) := by
  simp only [exec, execMtfFbegin, State.unlessLocked_of_clear hf, resetbal_eq, complete_eq_ended]

theorem exec_mtfFsym_of_fstep {v k : Byte} {r : RankStructure} (hstep : fstep s.rank v = some (k, r)) :
    exec (.mtfFsym v) s = .next (ended { s with rank := r } 0 (zext24 k)) := by
  simp only [exec, execMtfFsym, State.unlessLocked_of_clear hf, hstep, complete_eq_ended]

theorem exec_mtfFsym_of_fstep_none {v : Byte} (hstep : fstep s.rank v = none) :
    exec (.mtfFsym v) s = .next (ended { s with faultFlag := true } 5 0) := by
  simp only [exec, execMtfFsym, State.unlessLocked_of_clear hf, hstep, raiseInternal_eq_ended]

theorem exec_mtfFwd_of_gt {len : Data} (hlen : len < traversal s.size len) :
    exec (.mtfFwd len) s = .next (s.raise .range) := by
  simp only [exec, execMtfFwd, State.unlessLocked_of_clear hf, gt_iff_lt, if_pos hlen]

/-- A block that meets no broken structure; the loop starts from the canonical state (R93, R115). -/
theorem exec_mtfFwd_of_loop {len : Data} (hlen : ¬len < traversal s.size len) {r : RankStructure} {m : Memory}
    (hloop : fwdLoop (traversal s.size len).toNat 0 RankStructure.canonical s.buf = (true, r, m)) :
    exec (.mtfFwd len) s = .next (ended { s with rank := r, buf := m } 0 (traversal s.size len)) := by
  simp only [exec, execMtfFwd, State.unlessLocked_of_clear hf, gt_iff_lt, if_neg hlen, resetbal_eq, hloop,
    complete_eq_ended]

end

/-- An `MTF.FSYM` that answers `E_OK` got past the lock and its step succeeded (R110). -/
theorem fstep_of_exec_mtfFsym_ok {s t : State} {v : Byte} (hexec : exec (.mtfFsym v) s = .next t)
    (hstatus : t.status = 0) : s.faultFlag = false ∧
      ∃ k r, fstep s.rank v = some (k, r) ∧ t = ended { s with rank := r } 0 (zext24 k) := by
  obtain hf | hf := Bool.eq_false_or_eq_true s.faultFlag
  · obtain rfl := Host.Outcome.next.inj ((exec_forward_of_locked rfl hf).symm.trans hexec)
    cases hstatus
  · cases hstep : fstep s.rank v with
    | none =>
      obtain rfl := Host.Outcome.next.inj ((exec_mtfFsym_of_fstep_none hf hstep).symm.trans hexec)
      cases hstatus
    | some p =>
      exact ⟨hf, p.1, p.2, rfl, Host.Outcome.next.inj (hexec.symm.trans (exec_mtfFsym_of_fstep hf hstep))⟩

/-! ### The fast path and the symbol that is not found -/

/-- The fast path (R97). -/
theorem fstep_prevSym_eq (r : RankStructure) : fstep r r.prevSym = some (0, r) := if_pos rfl

/-- A walk that does not meet the symbol finds nothing (R101). -/
theorem walkTo_eq_none {next : Table 8 Link} {v : Byte} {more : Nat} (n : Nat) {p : Link}
    (h : v ∉ chainFrom next (more + 1) p) : walkTo next v more n p = none := by
  induction more generalizing n p with
  | zero =>
    cases p with
    | none => rfl
    | some u => simpa [chainFrom, walkTo, eq_comm] using h
  | succ more ih =>
    cases p with
    | none => rfl
    | some u =>
      rw [chainFrom, List.mem_cons, not_or] at h
      obtain ⟨hne, hrest⟩ := h
      simpa only [walkTo, Option.some.injEq, if_neg (Ne.symm hne)] using ih (n + 1) hrest

theorem rankQuery_eq_none {r : RankStructure} {v : Byte} {k : BitVec 4} (hk : r.len.read k ≠ 0)
    (h : v ∉ chainFrom r.next (r.len.read k).toNat (r.head.read k)) : rankQuery r v k = none := by
  have hpos : (r.len.read k).toNat - 1 + 1 = (r.len.read k).toNat :=
    Nat.sub_add_cancel (Nat.pos_of_ne_zero fun e => hk (BitVec.eq_of_toNat_eq e))
  rw [rankQuery, walkTo_eq_none 0 (hpos.symm ▸ h), Option.map_none]

theorem fstep_eq_none_of_rankQuery {r : RankStructure} {v : Byte} (hv : v ≠ r.prevSym)
    (h : rankQuery r v (r.bkt.read v) = none) : fstep r v = none := by
  rw [fstep, if_neg hv, h]

end Sys2Proof.Machine

namespace Sys2Proof.Claims

open Machine

/-- Settles O10: `RESETBAL` always gives the canonical structure. -/
theorem resetbalGivesTheCanonicalState : Obligations.ResetbalGivesTheCanonicalState := fun r =>
  (resetbal_eq r).symm ▸ ⟨canonical_canonicalTable, canonical_order⟩

/-- Settles O11: the three clauses are a path through all nodes, along which `CARVE` writes the canonical partition. -/
theorem carveRestoresThePartition : Obligations.CarveRestoresThePartition := by
  intro r hc
  obtain ⟨hlen, hn, hp, -⟩ := chained_iff.mp hc
  obtain ⟨r', hcarve, hnext, hprev, hhead, hfront, hlen0, hlens, hheads, hbkt0, hbkts⟩ := carve_of_path hlen hn hp
  have ho : r'.order = r.order := by rw [RankStructure.order, hnext, hhead, RankStructure.order]
  have hzero : r'.head.read 0 = r'.order[0]? := by
    rw [hhead, ho, path_head hp, Option.or_none, List.head?_eq_getElem?]
  obtain ⟨hsum, hoffsets, hnamed, -⟩ :=
    partition_canonical hlen0 hlens hzero (by rwa [ho]) (by rwa [ho]) (by rwa [ho])
  exact ⟨r', hcarve, hnext, hprev, hhead, hfront, ho, hlen0, hlens, hheads, hbkt0, hbkts, hsum, hoffsets, hnamed⟩

/-- Settles O12: `MTF.FBEGIN` writes the canonical structure. -/
theorem fbeginEstablishesTheCanonicalState : Obligations.FbeginEstablishesTheCanonicalState := fun _ hf =>
  ⟨_, canonical_canonicalTable, exec_mtfFbegin_of_clear hf⟩

/-- Settles O13: the step takes the fast path. -/
theorem fsymFastPath : Obligations.FsymFastPath := fun s hf => exec_mtfFsym_of_fstep hf (fstep_prevSym_eq s.rank)

/-- Settles O16: the walk through the bucket meets every node but the symbol. -/
theorem fsymSymbolNotFound : Obligations.FsymSymbolNotFound := fun _ _ hf hv hlen hchain =>
  exec_mtfFsym_of_fstep_none hf (fstep_eq_none_of_rankQuery hv (rankQuery_eq_none hlen hchain))

/-- Settles O17: a step that succeeded has left the symbol at the front, so the next one takes the fast path. -/
theorem fsymRepeatedSymbol : Obligations.FsymRepeatedSymbol := by
  intro s t v hexec hstatus
  obtain ⟨hf, k, r, hstep, rfl⟩ := fstep_of_exec_mtfFsym_ok hexec hstatus
  obtain rfl := fstep_prevSym hstep
  exact fsymFastPath _ hf

end Sys2Proof.Claims
end

section
/-! PROOFS. The forward transform as a refinement of move-to-front on lists (40_mtf_forward.md R90, R110 to R117). -/

namespace Sys2Proof.Machine

open Claims

/-! ### One step -/

/-- In a well-formed structure every symbol has a position (10_state.md R34). -/
theorem idxOf_order_lt {r : RankStructure} (hw : r.WF) (v : Byte) : r.order.idxOf v < 256 := by
  obtain ⟨hlen, hn, -, -⟩ := chained_iff.mp hw.1
  exact hlen ▸ List.idxOf_lt_length_iff.mpr (mem_of_full hlen hn v)

theorem toNat_trunc8_idxOf {r : RankStructure} (hw : r.WF) (v : Byte) :
    (trunc8 (r.order.idxOf v)).toNat = r.order.idxOf v := by
  rw [trunc8, BitVec.toNat_ofNat, Nat.mod_eq_of_lt (idxOf_order_lt hw v)]

/-- `MTF.FSYM` on a well-formed structure answers the position and moves the symbol to the front (R100, R110 to
R112). -/
theorem exec_mtfFsym_settles {s : State} (hf : s.faultFlag = false) (hw : s.rank.WF) (hq : s.rank.Quiescent)
    (v : Byte) : ∃ r, fstep s.rank v = some (trunc8 (s.rank.order.idxOf v), r) ∧
      Settled r (moveToFront s.rank.order v) ∧
      exec (.mtfFsym v) s = .next (ended { s with rank := r } 0 (BitVec.ofNat 24 (s.rank.order.idxOf v))) := by
  obtain ⟨r, hstep, hsettled⟩ := fstep_settles hw hq v
  refine ⟨r, hstep, hsettled, ?_⟩
  rw [exec_mtfFsym_of_fstep hf hstep, zext24_trunc8, Nat.mod_eq_of_lt (idxOf_order_lt hw v)]

/-! ### A block -/

/-- The loop of `MTF.FWD` on a well-formed structure: it succeeds, the bytes it reads become their ranks, and the order
is the one after the last step (R90, R112, R115). -/
theorem fwdLoop_mtfRanks {r : RankStructure} (hw : r.WF) (hq : r.Quiescent) {m : Memory} (hm : m.wf) {count i : Nat}
    (hi : i + count ≤ Config.bufSize) :
    ∃ r' m', fwdLoop count i r m = (true, r', m') ∧
      Settled r' (orderAfter r.order ((List.range' i count).map m.readByte)) ∧
      ∀ j < count, (m'.readByte (i + j)).toNat =
        (mtfRanks r.order ((List.range' i count).map m.readByte)).getD j 0 := by
  induction count generalizing r m i with
  | zero => exact ⟨r, m, rfl, ⟨rfl, hw, hq⟩, fun j hj => absurd hj (Nat.not_lt_zero j)⟩
  | succ count ih =>
    obtain ⟨r₁, hstep, horder, hw₁, hq₁⟩ := fstep_settles hw hq (m.readByte i)
    generalize hk : trunc8 (r.order.idxOf (m.readByte i)) = k at hstep
    have hm₁ : (m.writeByte i k).wf := Memory.wf_writeByte hm (by omega) k
    have hread (a : Nat) : (m.writeByte i k).readByte a = if a = i then k else m.readByte a :=
      Memory.readByte_writeByte hm.1 i a k
    have hbytes : (List.range' (i + 1) count).map (m.writeByte i k).readByte =
        (List.range' (i + 1) count).map m.readByte := by
      refine List.map_congr_left fun a ha => ?_
      have := (List.mem_range'_1.mp ha).1
      rw [hread, if_neg (by omega)]
    obtain ⟨r', m', hloop, hsettled, hranks⟩ := ih hw₁ hq₁ hm₁ (i := i + 1) (by omega)
    rw [hbytes, horder] at hsettled hranks
    rw [List.range'_succ, List.map_cons, orderAfter, mtfRanks]
    refine ⟨r', m', by rw [fwdLoop, hstep]; exact hloop, hsettled, fun j hj => ?_⟩
    cases j with
    | zero =>
      have hkeep := (fwdLoop_frame count (i + 1) r₁ hm₁ (by omega)).2 i (by omega)
      rw [hloop, hread, if_pos rfl] at hkeep
      rw [Nat.add_zero, hkeep, ← hk, toNat_trunc8_idxOf hw, List.getD_cons_zero]
    | succ j =>
      rw [List.getD_cons_succ, ← hranks j (by omega), Nat.add_right_comm, Nat.add_assoc]

/-- The traversal length of a block that is not refused (R116). -/
theorem traversal_of_legal {size len stop : Data}
    (h : size = 0 ∧ stop = len ∨ size ≠ 0 ∧ stop = size ∧ size.toNat ≤ len.toNat) :
    traversal size len = stop ∧ ¬len < traversal size len := by
  obtain ⟨rfl, rfl⟩ | ⟨hne, rfl, hle⟩ := h
  · simp [traversal]
  · rw [traversal, if_neg hne]
    exact ⟨rfl, Nat.not_lt.mpr hle⟩

/-! ### The order alone decides the answers (R113) -/

/-- Only the commands of the forward engine see the rank structure (10_state.md R42). -/
theorem exec_not_forward_withRank {i : Instr} (hi : isForward i = false) {s t : State} (h : exec i s = .next t)
    (r : RankStructure) : exec i (withRank r s) = .next (withRank r t) := by
  cases i with
  | mtfIbegin | mtfIsym | mtfInv => exact exec_inverse_withRank rfl h r
  | nop =>
    cases h
    rfl
  | mtfSetsize n =>
    cases h
    refine congrArg Host.Outcome.next (unlessLocked_map (withRank r) ?_)
    rfl
  | rgeCfg signed l | rgdCfg signed l =>
    cases h
    refine congrArg Host.Outcome.next (unlessLocked_map (withRank r) ?_)
    rw [apply_ite (withRank r)]
    exact if_congr Iff.rfl rfl rfl
  | rgeEnc v | rgdDec =>
    cases h
    refine congrArg Host.Outcome.next (unlessLocked_map (withRank r) ?_)
    rw [apply_ite (withRank r)]
    refine if_congr Iff.rfl ?_ rfl
    dsimp only [withRank]
    split <;> rfl
  | rdcsr k =>
    cases h
    refine congrArg Host.Outcome.next ?_
    have hcsr : csrValue (withRank r s) k = csrValue s k := rfl
    rw [hcsr]
    split <;> rfl
  | mtfFbegin | mtfFsym | mtfFwd => cases hi

/-- A command of the forward engine run on another partition of the same order ends alike, on a partition of the same
order. -/
theorem exec_forward_withRank {i : Instr} (hi : isForward i = true) {s : State} (hf : s.faultFlag = false)
    (hw : s.rank.WF) (hq : s.rank.Quiescent) {r : RankStructure} (hwr : r.WF) (hqr : r.Quiescent)
    (ho : r.order = s.rank.order) :
    ∃ t r', exec i s = .next t ∧ exec i (withRank r s) = .next (withRank r' t) ∧ r'.order = t.rank.order := by
  have hf' : (withRank r s).faultFlag = false := hf
  cases i with
  | mtfFbegin => exact ⟨_, _, exec_mtfFbegin_of_clear hf, exec_mtfFbegin_of_clear hf', rfl⟩
  | mtfFsym v =>
    obtain ⟨r₁, -, hsettled, hexec⟩ := exec_mtfFsym_settles hf hw hq v
    obtain ⟨r₂, -, hsettled', hexec'⟩ := exec_mtfFsym_settles hf' hwr hqr v
    refine ⟨_, r₂, hexec, ?_, ?_⟩
    · rw [hexec', withRank, ho]
      rfl
    · exact hsettled'.order.trans (ho ▸ hsettled.order.symm)
  | mtfFwd len =>
    by_cases hlen : len < traversal s.size len
    · exact ⟨_, r, exec_mtfFwd_of_gt hf hlen, exec_mtfFwd_of_gt hf' hlen, ho⟩
    · obtain ⟨r', m, hloop, -⟩ :=
        fwdLoop_succeeds canonical_wf.1 canonical_wf.2 (traversal s.size len).toNat 0 s.buf
      exact ⟨_, r', exec_mtfFwd_of_loop hf hlen hloop, exec_mtfFwd_of_loop hf' hlen hloop, rfl⟩
  | _ => cases hi

theorem exec_withRank {s t : State} {i : Instr} (h : exec i s = .next t) (hw : s.rank.WF) (hq : s.rank.Quiescent)
    {r : RankStructure} (hwr : r.WF) (hqr : r.Quiescent) (ho : r.order = s.rank.order) :
    ∃ r', exec i (withRank r s) = .next (withRank r' t) ∧ r'.order = t.rank.order := by
  cases hi : isForward i with
  | false => exact ⟨r, exec_not_forward_withRank hi h r, ho.trans (congrArg _ ((effect_of_exec h).rank_eq hi).symm)⟩
  | true =>
    cases hf : s.faultFlag with
    | true =>
      obtain rfl := Host.Outcome.next.inj ((exec_forward_of_locked hi hf).symm.trans h)
      exact ⟨r, exec_forward_of_locked hi (s := withRank r s) hf, ho⟩
    | false =>
      obtain ⟨u, r', hexec, hexec', ho'⟩ := exec_forward_withRank hi hf hw hq hwr hqr ho
      obtain rfl := Host.Outcome.next.inj (hexec.symm.trans h)
      exact ⟨r', hexec', ho'⟩

end Sys2Proof.Machine

namespace Sys2Proof.Claims

open Machine

/-- Settles O14: the step of a well-formed structure succeeds, and a step that succeeds remembers its symbol. -/
theorem fsymReturnsTheRankAndPromotes : Obligations.FsymReturnsTheRankAndPromotes := by
  intro s v hf hw hq
  obtain ⟨r, hstep, hsettled, hexec⟩ := exec_mtfFsym_settles hf hw hq v
  exact ⟨r, hexec, idxOf_order_lt hw v, hsettled.order, fstep_prevSym hstep, hsettled.wf, hsettled.quiescent⟩

/-- Settles O18: the loop runs from the canonical state, whose order is the identity. -/
theorem fwdReplacesSymbolsByRanks : Obligations.FwdReplacesSymbolsByRanks := by
  intro s len stop hf hbuf hstop
  obtain ⟨htrav, hlegal⟩ := traversal_of_legal hstop
  have hspace : 0 + stop.toNat ≤ Config.bufSize := htrav ▸ traversal_le_bufSize s.size len
  obtain ⟨r, m, hloop, hsettled, hranks⟩ := fwdLoop_mtfRanks canonical_wf.1 canonical_wf.2 hbuf hspace
  have hframe := fwdLoop_frame stop.toNat 0 RankStructure.canonical hbuf hspace
  rw [hloop] at hframe
  obtain ⟨hbuf', hkeep⟩ := hframe
  rw [canonical_order, ← List.range_eq_range'] at hsettled hranks
  subst htrav
  refine ⟨r, m, exec_mtfFwd_of_loop hf hlegal hloop, fun i hi => ?_,
    fun a ha => hkeep a (.inr (by rwa [Nat.zero_add])), hsettled.order, hsettled.wf, hsettled.quiescent, hbuf'⟩
  have hrank := hranks i hi
  rwa [Nat.zero_add] at hrank

/-- Settles O41: every command runs alike on both partitions and ends on partitions of one order. -/
theorem responsesIgnoreThePartition : Obligations.ResponsesIgnoreThePartition := by
  intro i s t t' r hw hq hwr hqr ho hexec hexec'
  obtain ⟨r', hsame, ho'⟩ := exec_withRank hexec hw hq hwr hqr ho
  obtain rfl := Host.Outcome.next.inj (hsame.symm.trans hexec')
  exact ⟨rfl, rfl, ho', rfl⟩

end Sys2Proof.Claims
end

section
/-! PROOFS. What a slow-path step does to the buckets (40_mtf_forward.md R104 to R107): the three ways it can settle
them, and when each is taken. -/

namespace Sys2Proof.Machine

open Claims

/-! ### The slow path -/

/-- The first bucket starts at the front of the order. -/
theorem head_zero_of_wf {r : RankStructure} (hw : r.WF) : r.head.read 0 = some r.prevSym := by
  obtain ⟨-, -, hp, -⟩ := chained_iff.mp hw.1
  obtain ⟨o, ho⟩ := order_starts_with_prevSym hw
  rw [ho] at hp
  exact hp.1

/-- The slow path of a well-formed structure: the symbol is relinked at the front, then the buckets are settled. -/
theorem fstep_relinks {r : RankStructure} (hw : r.WF) (hq : r.Quiescent) {v : Byte} (hv : v ≠ r.prevSym) :
    ∃ a b r₂ r₃, Located r v a b ∧ Relinked r r₂ v a b ∧ settleBuckets r₂ v (r.bkt.read v) = some r₃ ∧
      fstep r v = some (trunc8 (r.order.idxOf v), { r₃ with prevSym := v }) ∧ r₃.head.read 0 = some v := by
  obtain ⟨a, b, h⟩ := exists_located hw hv
  obtain ⟨r₂, h₂, hpromote⟩ := promote_eq hw.1 h
  obtain ⟨r₃, hsettle, hsettled⟩ := settleBuckets_settles hw hq h h₂
  rw [hsettle, Option.map_some] at hpromote
  exact ⟨a, b, r₂, r₃, h, h₂, hsettle, by simp only [fstep, if_neg hv, h.rankQuery_eq hw, hpromote],
    head_zero_of_wf hsettled.wf⟩

/-- The node after a symbol follows it in the order. -/
theorem Located.next_eq {r : RankStructure} {v : Byte} {a b : List Byte} (h : Located r v a b) (hc : r.Chained) :
    r.next.read v = b.head? := by
  obtain ⟨-, -, hp, -⟩ := chained_iff.mp hc
  rw [h.order] at hp
  obtain ⟨_, -, -, hb⟩ := (path_append _ _ _ a (v :: b)).mp hp
  rw [path_head hb, Option.or_none]

namespace Relinked

variable {r r₂ : RankStructure} {v : Byte} {a b : List Byte} (h₂ : Relinked r r₂ v a b)
include h₂

/-- The head update reaches the symbol's own bucket only (R104). -/
theorem head_of_ne {j : BitVec 4} (hj : j ≠ 0) (hjk : j ≠ r.bkt.read v) : r₂.head.read j = r.head.read j := by
  rw [h₂.head, newHead, if_neg hj, if_neg fun h => hjk h.1]

/-- The head of the symbol's own bucket moves on when it was the symbol (R104). -/
theorem head_bkt (hk : r.bkt.read v ≠ 0) :
    r₂.head.read (r.bkt.read v) =
      if r.head.read (r.bkt.read v) = some v then b.head? else r.head.read (r.bkt.read v) := by
  rw [h₂.head, newHead, if_neg hk]
  exact if_congr (and_iff_right rfl) rfl rfl

end Relinked

/-! ### The lengths after `BOOKKEEP` -/

section
variable {r : RankStructure} (v : Byte) {k : BitVec 4} (hk : k ≠ 0)
include hk

/-- `LEN[0]` of at most 64 has room for one more (R35, R106). -/
theorem bookkeep_len_zero (h : (r.len.read 0).toNat ≤ 64) :
    ((bookkeep r v k).len.read 0).toNat = (r.len.read 0).toNat + 1 := by
  rw [bookkeep_len r v hk, Table.read_write_of_ne _ _ hk, Table.read_write_self, BitVec.toNat_add,
    show (1 : BitVec 7).toNat = 1 from rfl]
  omega

theorem bookkeep_len_self (h : 1 ≤ (r.len.read k).toNat) :
    ((bookkeep r v k).len.read k).toNat + 1 = (r.len.read k).toNat := by
  have hlt := (r.len.read k).isLt
  rw [bookkeep_len r v hk, Table.read_write_self, BitVec.toNat_sub, show (1 : BitVec 7).toNat = 1 from rfl]
  omega

theorem bookkeep_len_of_ne {j : BitVec 4} (hj : j ≠ 0) (hjk : j ≠ k) :
    (bookkeep r v k).len.read j = r.len.read j := by
  rw [bookkeep_len r v hk, Table.read_write_of_ne _ _ hjk.symm, Table.read_write_of_ne _ _ hj.symm]

/-- Within the quiescent bounds the strict test of R107 says that bucket 0 was full or that the bucket held one
symbol. -/
theorem rebalance_iff (hq : r.Quiescent) :
    (Config.thresh < ((bookkeep r v k).len.read 0).toNat ∨ (bookkeep r v k).len.read k = 0) ↔
      (r.len.read 0).toNat = 64 ∨ r.len.read k = 1 := by
  obtain ⟨-, h0, hrest⟩ := hq
  have hzero := bookkeep_len_zero v hk h0
  have hself := bookkeep_len_self v hk (hrest k hk).1
  have hthresh : Config.thresh = 64 := rfl
  have hone : (1 : BitVec 7).toNat = 1 := rfl
  have hnil : (0 : BitVec 7).toNat = 0 := rfl
  rw [← BitVec.toNat_inj, ← BitVec.toNat_inj (y := 1)]
  omega

end

/-! ### The three ways to settle the buckets -/

section
variable {r : RankStructure} {v : Byte} {k : BitVec 4} (hk : k ≠ 0) (hq : r.Quiescent)
include hk hq

theorem settleBuckets_of_rebalance (h : (r.len.read 0).toNat = 64 ∨ r.len.read k = 1) :
    settleBuckets r v k = carve (bookkeep r v k) := by
  rw [settleBuckets, if_neg hk]
  exact if_pos ((rebalance_iff v hk hq).mpr h)

theorem settleBuckets_of_no_rebalance (h : ¬((r.len.read 0).toNat = 64 ∨ r.len.read k = 1)) :
    settleBuckets r v k = some (bookkeep r v k) := by
  rw [settleBuckets, if_neg hk]
  exact if_neg fun hcarve => h ((rebalance_iff v hk hq).mp hcarve)

end

/-- The quiescent bounds speak of the lengths only. -/
theorem quiescent_of_len_eq {r r' : RankStructure} (h : r'.len = r.len) (hq : r.Quiescent) : r'.Quiescent := by
  rwa [RankStructure.Quiescent, h]

end Sys2Proof.Machine

namespace Sys2Proof.Claims

open Machine

/-- Settles O15: a symbol of bucket 0 leaves the buckets as they are; from another bucket the strict test decides
between `CARVE` and `BOOKKEEP` alone. -/
theorem fsymSettlesTheBuckets : Obligations.FsymSettlesTheBuckets := by
  intro s v k hf hw hq hv hbkt
  subst hbkt
  obtain ⟨a, b, r₂, r₃, h, h₂, hsettle, hstep, hhead⟩ := fstep_relinks hw hq hv
  have hq₂ : r₂.Quiescent := quiescent_of_len_eq h₂.len hq
  refine ⟨_, exec_mtfFsym_of_fstep hf hstep, rfl, hhead, fun hk => ?front, fun hk hre => ?rebalance,
    fun hk hlt hne => ?plain⟩
  case front =>
    obtain rfl : r₂ = r₃ := Option.some.inj ((if_pos hk).symm.trans hsettle)
    exact ⟨h₂.len, h₂.bkt, fun j hj => h₂.head_of_ne hj (hk ▸ hj)⟩
  case rebalance =>
    rw [← h₂.len] at hre
    rw [settleBuckets_of_rebalance hk hq₂ hre] at hsettle
    obtain ⟨hlen, hn⟩ := promoted_order_full hw h
    obtain ⟨r', hcarve, -, -, -, -, hlen0, hlens, hheads, hbkt0, hbkts⟩ :=
      carve_of_path (r := bookkeep r₂ v (s.rank.bkt.read v)) hlen hn h₂.next
    obtain rfl := Option.some.inj (hcarve.symm.trans hsettle)
    rw [h.moveToFront_eq]
    exact ⟨hlen0, fun j hj => ⟨hlens j hj, hheads j hj⟩, hbkt0 v rfl, hbkts⟩
  case plain =>
    have hno : ¬((r₂.len.read 0).toNat = 64 ∨ r₂.len.read (s.rank.bkt.read v) = 1) := by
      rw [h₂.len]
      exact not_or.mpr ⟨hlt.ne, hne⟩
    rw [settleBuckets_of_no_rebalance hk hq₂ hno] at hsettle
    obtain rfl := Option.some.inj hsettle
    obtain ⟨-, hle, hrest⟩ := hq₂
    rw [h.next_eq hw.1, ← h₂.len]
    refine ⟨bookkeep_len_zero v hk hle, bookkeep_len_self v hk (hrest _ hk).1,
      fun j hj hjk => ⟨bookkeep_len_of_ne v hk hj hjk, h₂.head_of_ne hj hjk⟩, h₂.head_bkt hk,
      Table.read_write_self _ v 0, fun u hu => ?_⟩
    rw [← h₂.bkt]
    exact Table.read_write_of_ne _ 0 hu.symm

end Sys2Proof.Claims
end

section
/-! PROOFS. The inverse engine (41_mtf_inverse.md R120 to R128): how its commands end, its block loop as the inverse
transform on lists, and that it undoes the forward engine. -/

namespace Sys2Proof.Machine

open Claims

/-! ### Endings -/

section
variable {s : State} (hf : s.faultFlag = false)
include hf

theorem exec_mtfIbegin_of_clear : exec .mtfIbegin s = .next (ended { s with idx := identityIdx } 0 0) := by
  simp only [exec, execMtfIbegin, State.unlessLocked_of_clear hf, complete_eq_ended]

/-- `MTF.ISYM` answers the symbol at the rank (R122, R123). -/
theorem exec_mtfIsym_of_clear (k : Byte) :
    exec (.mtfIsym k) s = .next (ended { s with idx := (istep s.idx k).2 } 0 (zext24 (s.idx.read k))) := by
  simp only [exec, execMtfIsym, State.unlessLocked_of_clear hf, complete_eq_ended, istep]

/-- A block that is not refused; the loop starts from the identity (R126). -/
theorem exec_mtfInv_of_loop {len : Data} (hlen : ¬len < traversal s.size len) {idx : Table 8 Byte} {m : Memory}
    (hloop : invLoop (traversal s.size len).toNat 0 identityIdx s.buf = (idx, m)) :
    exec (.mtfInv len) s = .next (ended { s with idx := idx, buf := m } 0 (traversal s.size len)) := by
  simp only [exec, execMtfInv, State.unlessLocked_of_clear hf, gt_iff_lt, if_neg hlen, hloop, complete_eq_ended]

end

/-! ### A block -/

theorem tableList_identityIdx : tableList identityIdx = identityOrder :=
  List.map_congr_left fun _ _ => identityIdx_read _

/-- A write below a slice of `BUF` leaves the slice. -/
theorem map_readByte_writeByte_of_lt {m : Memory} (hm : m.wf) {a i : Nat} (ha : a < i) (count : Nat) (v : Byte) :
    (List.range' i count).map (m.writeByte a v).readByte = (List.range' i count).map m.readByte := by
  refine List.map_congr_left fun b hb => ?_
  have := (List.mem_range'_1.mp hb).1
  rw [Memory.readByte_writeByte hm.1, if_neg (by omega)]

/-- The loop of `MTF.INV` on a permutation: the bytes it reads become the symbols at those ranks, and `IDX` is left with
the order after the last step (R122, R126). -/
theorem invLoop_mtfSymbols {idx : Table 8 Byte} (hidx : IdxPermutation idx) {m : Memory} (hm : m.wf) {count i : Nat}
    (hi : i + count ≤ Config.bufSize) :
    tableList (invLoop count i idx m).1 = orderAfterRanks (tableList idx) ((List.range' i count).map m.readByte) ∧
      ∀ j < count, (invLoop count i idx m).2.readByte (i + j) =
        (mtfSymbols (tableList idx) ((List.range' i count).map m.readByte)).getD j 0 := by
  induction count generalizing idx m i with
  | zero => exact ⟨rfl, fun j hj => absurd hj (Nat.not_lt_zero j)⟩
  | succ count ih =>
    have hm₁ := Memory.wf_writeByte hm (show i < Config.bufSize by omega) (idx.read (m.readByte i))
    obtain ⟨horder, hsymbols⟩ := ih (istep_permutation hidx (m.readByte i)) hm₁ (i := i + 1) (by omega)
    rw [map_readByte_writeByte_of_lt hm (Nat.lt_succ_self i), tableList_istep hidx] at horder hsymbols
    rw [List.range'_succ, List.map_cons, orderAfterRanks, mtfSymbols, tableList_getD]
    refine ⟨horder, fun j hj => ?_⟩
    cases j with
    | zero =>
      have hkeep := (invLoop_frame count (i + 1) (istep idx (m.readByte i)).2 hm₁ (by omega)).2 i (by omega)
      rw [Memory.readByte_writeByte hm.1, if_pos rfl] at hkeep
      rwa [List.getD_cons_zero]
    | succ j =>
      rw [List.getD_cons_succ, ← hsymbols j (by omega), Nat.add_right_comm, Nat.add_assoc]
      rfl

/-! ### The inverse transform undoes the forward transform (R125, R127) -/

theorem zext24_injective : Function.Injective zext24 :=
  Function.LeftInverse.injective (g := BitVec.setWidth 8) fun v =>
    setWidth_setWidth_of_lt (lt_trans v.isLt (by decide))

theorem mtfRanks_length (o vs : List Byte) : (mtfRanks o vs).length = vs.length := by
  induction vs generalizing o with
  | nil => rfl
  | cons v vs ih => exact congrArg Nat.succ (ih _)

section
variable {o : List Byte} (hlen : o.length = 256) (hn : o.Nodup)
include hlen hn

/-- In a permutation of the symbols the symbol at a symbol's own rank is that symbol. -/
theorem getD_trunc8_idxOf (v : Byte) : o.getD (trunc8 (o.idxOf v)).toNat 0 = v := by
  have hlt : o.idxOf v < o.length := List.idxOf_lt_length_iff.mpr (mem_of_full hlen hn v)
  have hbyte : o.idxOf v < 2 ^ 8 := hlt.trans_eq hlen
  rw [trunc8, BitVec.toNat_ofNat, Nat.mod_eq_of_lt hbyte, List.getD_eq_getElem _ _ hlt, List.getElem_idxOf hlt]

theorem mtfSymbols_mtfRanks (vs : List Byte) : mtfSymbols o ((mtfRanks o vs).map trunc8) = vs := by
  induction vs generalizing o with
  | nil => rfl
  | cons v vs ih =>
    have hperm : o.Perm (moveToFront o v) := List.perm_cons_erase (mem_of_full hlen hn v)
    rw [mtfRanks, List.map_cons, mtfSymbols, getD_trunc8_idxOf hlen hn,
      ih (hperm.length_eq ▸ hlen) (hperm.nodup_iff.mp hn)]

end

theorem bufPrefix_length (s : State) (n : Nat) : (bufPrefix s n).length = n := by
  rw [bufPrefix, List.length_map, List.length_range]

/-- Bytes that are given one by one as the entries of a list of ranks. -/
theorem bufPrefix_eq_map_trunc8 {s : State} {n : Nat} {ranks : List Nat} (hlen : ranks.length = n)
    (h : ∀ i < n, (s.buf.readByte i).toNat = ranks.getD i 0) : bufPrefix s n = ranks.map trunc8 := by
  refine List.ext_getElem (by rw [bufPrefix_length, List.length_map, hlen]) fun i hi _ => ?_
  have hin : i < n := bufPrefix_length s n ▸ hi
  have hrank := h i hin
  rw [List.getD_eq_getElem _ _ (hlen ▸ hin)] at hrank
  simp [bufPrefix, ← hrank, trunc8]

theorem bufPrefix_getD (s : State) {n a : Nat} (ha : a < n) : (bufPrefix s n).getD a 0 = s.buf.readByte a := by
  simp [bufPrefix, ha]

/-- Every block that is not refused has a traversal length (R116). -/
theorem exists_legal_stop {size len : Data} (h : size = 0 ∨ size.toNat ≤ len.toNat) :
    ∃ stop, size = 0 ∧ stop = len ∨ size ≠ 0 ∧ stop = size ∧ size.toNat ≤ len.toNat := by
  by_cases hsize : size = 0
  · exact ⟨len, .inl ⟨hsize, rfl⟩⟩
  · exact ⟨size, .inr ⟨hsize, rfl, h.resolve_left hsize⟩⟩

end Sys2Proof.Machine

namespace Sys2Proof.Claims

open Machine

/-- Settles O20: the table `MTF.IBEGIN` writes reads as the identity. -/
theorem ibeginWritesTheIdentity : Obligations.IbeginWritesTheIdentity := fun _ hf =>
  ⟨identityIdx, identityIdx_read, exec_mtfIbegin_of_clear hf⟩

/-- Settles O21: the inverse step read entry by entry. -/
theorem isymRotatesTheSlice : Obligations.IsymRotatesTheSlice := by
  intro s r hf
  refine ⟨_, exec_mtfIsym_of_clear hf r, read_istep s.idx r 0, fun j hpos hle => ?_, fun j hlt => ?_⟩
  · rw [read_istep, if_neg hpos.ne', if_pos hle]
  · rw [read_istep, if_neg (Nat.ne_zero_of_lt hlt), if_neg hlt.not_ge]

/-- Settles O22: only the inverse engine's commands write `IDX`: the identity, or what inverse steps make of a
permutation. -/
theorem idxStaysAPermutation : Obligations.IdxStaysAPermutation := by
  refine ⟨identityIdx_permutation, fun i s t hexec hidx => ?_⟩
  cases effect_of_exec hexec with
  | ibegin => exact identityIdx_permutation
  | isym k => exact istep_permutation hidx k
  | @inv len idx m hloop =>
    have hidx' := invLoop_permutation identityIdx_permutation (traversal s.size len).toNat 0 s.buf
    rwa [hloop] at hidx'
  | _ => exact hidx

/-- Settles O23: both steps move to the front the symbol that stands at the answered rank. -/
theorem inverseStepUndoesTheForwardStep : Obligations.InverseStepUndoesTheForwardStep := by
  intro s t v k hw hq hf horder hexec hres
  obtain ⟨hlen, hn, -, -⟩ := chained_iff.mp hw.1
  have hidx : IdxPermutation s.idx := idxPermutation_of_nodup (horder ▸ hn)
  obtain ⟨r, hstep, hsettled⟩ := fstep_settles hw hq v
  obtain rfl := Host.Outcome.next.inj ((exec_mtfFsym_of_fstep hf hstep).symm.trans hexec)
  obtain rfl : trunc8 (s.rank.order.idxOf v) = k := zext24_injective hres
  have hread : s.idx.read (trunc8 (s.rank.order.idxOf v)) = v := by
    rw [← tableList_getD, horder, getD_trunc8_idxOf hlen hn]
  refine ⟨_, exec_mtfIsym_of_clear (s := ended { s with rank := r } 0 _) hf _, ?_, ?_⟩
  · exact congrArg zext24 hread
  · calc tableList (istep s.idx (trunc8 (s.rank.order.idxOf v))).2
        = moveToFront s.rank.order v := by rw [tableList_istep hidx, hread, horder]
      _ = r.order := hsettled.order.symm

/-- Settles O24: the loop runs from the identity. -/
theorem invReplacesRanksBySymbols : Obligations.InvReplacesRanksBySymbols := by
  intro s len stop hf hbuf hstop
  obtain ⟨rfl, hlegal⟩ := traversal_of_legal hstop
  have hspace := traversal_le_bufSize s.size len
  obtain ⟨horder, hsymbols⟩ := invLoop_mtfSymbols identityIdx_permutation hbuf hspace
  obtain ⟨hbuf', hkeep⟩ := invLoop_frame _ 0 identityIdx hbuf hspace
  rw [tableList_identityIdx, ← List.range_eq_range'] at horder hsymbols
  refine ⟨_, _, exec_mtfInv_of_loop hf hlegal rfl, fun i hi => ?_,
    fun a ha => hkeep a (.inr (by rwa [Nat.zero_add])), horder, hbuf'⟩
  have hsymbol := hsymbols i hi
  rwa [Nat.zero_add] at hsymbol

/-- Settles O25: the forward block leaves the ranks in the buffer, and the inverse transform of the ranks is the old
content. -/
theorem blockRoundTrip : Obligations.BlockRoundTrip := by
  intro s len hf hbuf hsize
  obtain ⟨stop, hstop⟩ := exists_legal_stop hsize
  obtain ⟨r, m, hfwd, hranks, hkeep, -, -, -, hm⟩ := fwdReplacesSymbolsByRanks s len stop hf hbuf hstop
  obtain ⟨idx, m', hinv, hsymbols, hkeep', -, -⟩ :=
    invReplacesRanksBySymbols (ended { s with rank := r, buf := m } 0 stop) len stop hf hm hstop
  refine ⟨_, _, hfwd, hinv, rfl, rfl, fun a => ?_⟩
  by_cases ha : a < stop.toNat
  · have hlength : (mtfRanks identityOrder (bufPrefix s stop.toNat)).length = stop.toNat :=
      (mtfRanks_length _ _).trans (bufPrefix_length s _)
    calc m'.readByte a
        = (mtfSymbols identityOrder ((mtfRanks identityOrder (bufPrefix s stop.toNat)).map trunc8)).getD a 0 := by
          rw [hsymbols a ha, bufPrefix_eq_map_trunc8 hlength hranks]
      _ = s.buf.readByte a := by
          rw [mtfSymbols_mtfRanks (o := identityOrder) identityChain_length identityChain_nodup, bufPrefix_getD s ha]
  · exact (hkeep' a (Nat.not_lt.mp ha)).trans (hkeep a (Nat.not_lt.mp ha))

end Sys2Proof.Claims
end

section
/-! PROOFS. How the commands of the codecs end (42_rg_encoder.md R136 to R145, 43_rg_decoder.md R156 to R158): the
configuration, the requirement of a constructed codec, the write that fails. -/

namespace Sys2Proof.Machine

open Claims

/-! ### Endings -/

/-- An error's end, in the words of the claims (60_exceptions.md R194). -/
theorem raise_eq_ended (s : State) (c : Code) : s.raise c = ended s (codeBits c) 0 := rfl

/-- The fault lock turns away every command but the two that run under it (60_exceptions.md R199). -/
theorem exec_of_locked {i : Instr} (hi : ignoresFault i = false) {s : State} (hf : s.faultFlag = true) :
    exec i s = .next (ended s 5 0) := by
  cases i with
  | nop | rdcsr => cases hi
  | _ => exact congrArg Host.Outcome.next (State.unlessLocked_of_locked hf _)

section
variable {s : State} (hf : s.faultFlag = false)
include hf

/-- A legal configuration of a codec whose channel is there (R136; R156 for the decoder). -/
theorem exec_rgeCfg_of_legal {signed : Bool} {logBase : Byte} (hpresent : s.ech.isPresent = true)
    (hlegal : legalLogBase logBase = true) :
    exec (.rgeCfg signed logBase) s = .next (ended { s with enc := constructed signed logBase } 0 0) := by
  simp only [exec, execRgeCfg, State.unlessLocked_of_clear hf, hpresent, hlegal, Bool.and_self, if_true,
    complete_eq_ended]

theorem exec_rgdCfg_of_legal {signed : Bool} {logBase : Byte} (hpresent : s.dch.isPresent = true)
    (hlegal : legalLogBase logBase = true) :
    exec (.rgdCfg signed logBase) s = .next (ended { s with dec := constructed signed logBase } 0 0) := by
  simp only [exec, execRgdCfg, State.unlessLocked_of_clear hf, hpresent, hlegal, Bool.and_self, if_true,
    complete_eq_ended]

theorem exec_rgeCfg_of_illegal {signed : Bool} {logBase : Byte}
    (h : s.ech.isPresent = false ∨ legalLogBase logBase = false) :
    exec (.rgeCfg signed logBase) s = .next (ended s 1 0) := by
  simp only [exec, execRgeCfg, State.unlessLocked_of_clear hf, Bool.and_eq_false_iff.mpr h, Bool.false_eq_true,
    if_false, raise_eq_ended, codeBits]

theorem exec_rgdCfg_of_illegal {signed : Bool} {logBase : Byte}
    (h : s.dch.isPresent = false ∨ legalLogBase logBase = false) :
    exec (.rgdCfg signed logBase) s = .next (ended s 1 0) := by
  simp only [exec, execRgdCfg, State.unlessLocked_of_clear hf, Bool.and_eq_false_iff.mpr h, Bool.false_eq_true,
    if_false, raise_eq_ended, codeBits]

theorem exec_rgeEnc_of_not_valid {val : Byte} (hvalid : s.enc.valid = false) :
    exec (.rgeEnc val) s = .next (ended s 6 0) := by
  simp only [exec, execRgeEnc, State.unlessLocked_of_clear hf, hvalid, Bool.false_eq_true, if_false, raise_eq_ended,
    codeBits]

theorem exec_rgdDec_of_not_valid (hvalid : s.dec.valid = false) : exec .rgdDec s = .next (ended s 6 0) := by
  simp only [exec, execRgdDec, State.unlessLocked_of_clear hf, hvalid, Bool.false_eq_true, if_false, raise_eq_ended,
    codeBits]

/-- A codeword whose write fails leaves the channel as the failed call does (R145). -/
theorem exec_rgeEnc_of_write_fails {val : Byte} {ech : OutChannel} (hvalid : s.enc.valid = true)
    (hwrite : writeCodeword s.enc val s.ech = (false, ech)) :
    exec (.rgeEnc val) s = .next (ended { s with ech := ech } 2 0) := by
  simp only [exec, execRgeEnc, State.unlessLocked_of_clear hf, if_pos hvalid, hwrite, raise_eq_ended, codeBits]

end

/-- A call that the environment fails appends nothing, whatever the codeword (20_memory.md R60). -/
theorem writeCodeword_of_answer_false (c : CodecConfig) (val : Byte) {ech : OutChannel}
    (hanswer : ech.answers.head? = some false) :
    writeCodeword c val ech = (false, { ech with answers := ech.answers.tail }) := by
  obtain ⟨hsucceeds, -⟩ | ⟨-, hwrite⟩ := writeBits_cases ech (codeword c.signed c.logBase.toNat val).1
    (codeword c.signed c.logBase.toNat val).2
  · exact absurd hanswer hsucceeds
  · exact hwrite

end Sys2Proof.Machine

namespace Sys2Proof.Claims

open Machine

/-- Settles O26: the lock, then the legality test of the two `CFG` commands; a legal `logBase` fits its register. -/
theorem cfgConstructsOrRefuses : Obligations.CfgConstructsOrRefuses := by
  intro s signed logBase
  refine ⟨fun hf => ⟨exec_of_locked rfl hf, exec_of_locked rfl hf⟩, fun hf hmin hmax => ?legal,
    fun hf => ?illegal⟩
  case legal =>
    have hlegal := (legalLogBase_iff logBase).mpr ⟨hmin, hmax⟩
    exact ⟨constructed signed logBase, rfl, rfl, constructed_logBase signed hlegal,
      fun hpresent => exec_rgeCfg_of_legal hf hpresent hlegal, fun hpresent => exec_rgdCfg_of_legal hf hpresent hlegal⟩
  case illegal =>
    rw [← legalLogBase_eq_false]
    exact ⟨exec_rgeCfg_of_illegal hf, exec_rgdCfg_of_illegal hf⟩

/-- Settles O27: both codecs test `VALID` before any call. -/
theorem codecNeedsConstruction : Obligations.CodecNeedsConstruction := fun _ _ hf =>
  ⟨exec_rgeEnc_of_not_valid hf, exec_rgdDec_of_not_valid hf⟩

/-- Settles O29: the one call of `RGE.ENC` is the one that fails. -/
theorem encWriteFailureIsPrecise : Obligations.EncWriteFailureIsPrecise := fun s val hf hvalid hanswer =>
  exec_rgeEnc_of_write_fails hf hvalid (writeCodeword_of_answer_false s.enc val hanswer)

end Sys2Proof.Claims
end

section
/-! PROOFS. The ranges of the codeword of `RGE.ENC` (42_rg_encoder.md R147) and why no codeword is a prefix of another
(R148): the unary prefix ends at the first 1, the remainder has a fixed length, and the magnitude and the sign determine
the byte. -/

namespace Sys2Proof.Machine

open Claims

/-! ### Ranges -/

theorem magnitude_le (signed : Bool) (val : Byte) : magnitude signed val ≤ if signed then 128 else 255 := by
  have hval := val.isLt
  cases signed with
  | false => simp only [magnitude, Bool.false_eq_true, false_and, if_false]; omega
  | true =>
    simp only [magnitude, true_and, if_true]
    split <;> omega

theorem quotient_le (signed : Bool) (val : Byte) {logBase : Nat} (hmin : 1 ≤ logBase) :
    magnitude signed val / 2 ^ logBase ≤ if signed then 64 else 127 := by
  have hbase : 2 ^ 1 ≤ 2 ^ logBase := Nat.pow_le_pow_right Nat.two_pos hmin
  calc magnitude signed val / 2 ^ logBase
      ≤ magnitude signed val / 2 := Nat.div_le_div_left hbase Nat.two_pos
    _ ≤ (if signed then 128 else 255) / 2 := Nat.div_le_div_right (magnitude_le signed val)
    _ = if signed then 64 else 127 := by cases signed <;> rfl

/-- A longer remainder pays for itself: only `logBase = 1` in unsigned mode reaches the bound (R147). -/
theorem quotient_add_le (signed : Bool) (val : Byte) {logBase : Nat} (hmin : 1 ≤ logBase) (hmax : logBase ≤ 7) :
    magnitude signed val / 2 ^ logBase + logBase + (signPart signed val).length ≤ 128 := by
  cases signed with
  | true =>
    have hq : magnitude true val / 2 ^ logBase ≤ 64 := quotient_le true val hmin
    have hsign : (signPart true val).length ≤ 1 := by
      unfold signPart
      split <;> simp
    omega
  | false =>
    have hm : magnitude false val ≤ 255 := magnitude_le false val
    have hsign : signPart false val = [] := rfl
    rw [hsign, List.length_nil]
    interval_cases logBase <;> omega

theorem codewordBits_length (signed : Bool) (logBase : Nat) (val : Byte) :
    (codewordBits signed logBase val).length =
      magnitude signed val / 2 ^ logBase + 1 + logBase + (signPart signed val).length := by
  simp [codewordBits]
  omega

/-- The width that the encoder asks for is the codeword's length (R147). -/
theorem codeword_width (signed : Bool) (logBase : Nat) (val : Byte) :
    (codeword signed logBase val).2 =
      magnitude signed val / 2 ^ logBase + 1 + logBase + (signPart signed val).length := by
  have hlength := congrArg List.length (msbFirst_codeword signed logBase val)
  rwa [msbFirst_length, codewordBits_length] at hlength

theorem codeword_width_bounds (signed : Bool) (val : Byte) {logBase : Nat} (hmin : 1 ≤ logBase) (hmax : logBase ≤ 7) :
    2 ≤ (codeword signed logBase val).2 ∧ (codeword signed logBase val).2 ≤ 129 := by
  have htotal := quotient_add_le signed val hmin hmax
  rw [codeword_width]
  generalize magnitude signed val / 2 ^ logBase = q at htotal ⊢
  omega

/-- The value holds the terminator, the remainder and at most one bit more (R147). -/
theorem codeword_value_lt (signed : Bool) (logBase : Nat) (val : Byte) :
    (codeword signed logBase val).1 < 2 ^ (logBase + 1 + signed.toNat) := by
  have hr := Nat.mod_lt (magnitude signed val) (Nat.two_pow_pos logBase)
  have hw : 2 ^ logBase + magnitude signed val % 2 ^ logBase < 2 ^ (logBase + 1) := by
    rw [Nat.pow_succ]
    omega
  simp only [codeword, toNat_encoded_byte, or_terminator_remainder]
  split
  · rw [Nat.one_shiftLeft]
    exact Nat.pow_lt_pow_right (by decide) (by omega)
  · cases signed with
    | false => exact hw
    | true =>
      have hsign := (Bool.toNat_lt (val.getLsbD 7)).trans_le
        (Nat.pow_le_pow_right Nat.two_pos (show 1 ≤ logBase + 1 + true.toNat from Nat.le_add_left ..))
      refine Nat.or_lt_two_pow ?_ hsign
      rw [Nat.shiftLeft_eq, Bool.toNat_true, Nat.pow_succ]
      omega

/-! ### The parts of a codeword -/

/-- The first 1 ends the unary prefix. -/
theorem unary_append_inj {q q' : Nat} {a b : List Bool}
    (h : List.replicate q false ++ true :: a = List.replicate q' false ++ true :: b) : q = q' ∧ a = b := by
  induction q generalizing q' with
  | zero =>
    cases q' with
    | zero => exact ⟨rfl, (List.cons.inj h).2⟩
    | succ q' => cases h
  | succ q ih =>
    cases q' with
    | zero => cases h
    | succ q' => exact (ih (List.cons.inj h).2).imp_left (congrArg _)

theorem msbFirst_inj {logBase r r' : Nat} (hr : r < 2 ^ logBase) (hr' : r' < 2 ^ logBase)
    (h : msbFirst r logBase = msbFirst r' logBase) : r = r' := by
  have hvalue := congrArg bitsValue h
  rwa [bitsValue_msbFirst, bitsValue_msbFirst, Nat.mod_eq_of_lt hr, Nat.mod_eq_of_lt hr'] at hvalue

theorem codewordBits_eq (signed : Bool) (logBase : Nat) (val : Byte) :
    codewordBits signed logBase val = List.replicate (magnitude signed val / 2 ^ logBase) false ++
      true :: (msbFirst (magnitude signed val % 2 ^ logBase) logBase ++ signPart signed val) := by
  rw [codewordBits, msbFirst_eq_map]
  simp

/-- A codeword that begins with another one has its magnitude, and then its sign begins with the other's (R148). -/
theorem magnitude_eq_of_codewordBits_append {signed : Bool} {logBase : Nat} {v w : Byte} {t : List Bool}
    (h : codewordBits signed logBase v ++ t = codewordBits signed logBase w) :
    magnitude signed v = magnitude signed w ∧ signPart signed v ++ t = signPart signed w := by
  rw [codewordBits_eq, codewordBits_eq, List.append_assoc, List.cons_append, List.append_assoc] at h
  obtain ⟨hquotient, hrest⟩ := unary_append_inj h
  obtain ⟨hbits, hsign⟩ := List.append_inj hrest (by rw [msbFirst_length, msbFirst_length])
  have hbase := Nat.two_pow_pos logBase
  have hremainder := msbFirst_inj (Nat.mod_lt _ hbase) (Nat.mod_lt _ hbase) hbits
  refine ⟨?_, hsign⟩
  rw [← Nat.div_add_mod (magnitude signed v) (2 ^ logBase), hquotient, hremainder, Nat.div_add_mod]

theorem magnitude_eq_zero_iff {signed : Bool} {val : Byte} : magnitude signed val = 0 ↔ val = 0 := by
  have hval := val.isLt
  have hzero : val = 0 ↔ val.toNat = 0 := BitVec.toNat_inj.symm
  rw [hzero, magnitude]
  split <;> omega

/-- In signed mode the magnitude and the sign part determine the byte (R148 (h)); in unsigned mode the magnitude
does. -/
theorem eq_of_magnitude_of_signPart {signed : Bool} {v w : Byte} {t : List Bool}
    (hm : magnitude signed v = magnitude signed w) (hsign : signPart signed v ++ t = signPart signed w) : v = w := by
  by_cases hv : v = 0
  · rw [hv]
    exact (magnitude_eq_zero_iff.mp (hm.symm.trans (magnitude_eq_zero_iff.mpr hv))).symm
  have hw : w ≠ 0 := fun hw => hv (magnitude_eq_zero_iff.mp (hm.trans (magnitude_eq_zero_iff.mpr hw)))
  apply BitVec.eq_of_toNat_eq
  cases signed with
  | false => exact hm
  | true =>
    have hnegative : 128 ≤ v.toNat ↔ 128 ≤ w.toNat := by
      rw [signPart, if_pos ⟨rfl, hv⟩, signPart, if_pos ⟨rfl, hw⟩] at hsign
      exact decide_eq_decide.mp (List.cons.inj hsign).1
    simp only [magnitude, true_and, hnegative] at hm
    split at hm <;> omega

end Sys2Proof.Machine

namespace Sys2Proof.Claims

open Machine

/-- Settles O31: the width is the length of the codeword; the value is the terminator, the remainder and the sign. -/
theorem codewordRanges : Obligations.CodewordRanges := by
  intro signed logBase val hmin hmax
  have hquotient := quotient_le signed val hmin
  obtain ⟨hwidthMin, hwidthMax⟩ := codeword_width_bounds signed val hmin hmax
  have hvalue := codeword_value_lt signed logBase val
  have hexponent : logBase + 1 + signed.toNat ≤ 9 := by
    have hsigned := signed.toNat_le
    omega
  refine ⟨hquotient.trans (by cases signed <;> decide), ?_, hwidthMin, hwidthMax,
    hvalue.trans_le (Nat.pow_le_pow_right Nat.two_pos hexponent), ?_, ?_, msbFirst_codeword signed logBase val⟩
  · rintro rfl
    exact hquotient
  · rintro rfl
    exact hvalue
  · rintro rfl
    exact hvalue

/-- Settles O32: the two bytes have one magnitude, and one sign where there is one. -/
theorem codewordsArePrefixFree : Obligations.CodewordsArePrefixFree := by
  intro signed logBase v w _ _ hprefix
  rw [msbFirst_codeword, msbFirst_codeword] at hprefix
  obtain ⟨t, ht⟩ := hprefix
  obtain ⟨hm, hsign⟩ := magnitude_eq_of_codewordBits_append ht
  exact eq_of_magnitude_of_signPart hm hsign

end Sys2Proof.Claims
end

section
/-! PROOFS. Parsing one codeword call by call (43_rg_decoder.md R159 to R165): the channel after a number of bits and
calls, the prefix and the remainder, the sign, and the ways `RGD.DEC` ends. -/

namespace Sys2Proof.Machine

open Claims

/-! ### The channel after a number of calls -/

/-- The input channel after `calls` calls that together consumed `bits` bits (20_memory.md R63 to R65). -/
def InChannel.consumed (c : InChannel) (bits calls : Nat) : InChannel :=
  { c with pos := c.pos + bits, answers := c.answers.drop calls }

theorem InChannel.consumed_consumed (c : InChannel) (bits calls bits' calls' : Nat) :
    (c.consumed bits calls).consumed bits' calls' = c.consumed (bits + bits') (calls + calls') := by
  simp only [InChannel.consumed, List.drop_drop, Nat.add_assoc]

/-- Consuming the bits `taken` leaves those behind them. -/
theorem InChannel.drop_consumed {c : InChannel} {taken rest : List Bool} (hbits : c.bits.drop c.pos = taken ++ rest)
    (calls : Nat) :
    (c.consumed taken.length calls).bits.drop (c.consumed taken.length calls).pos = rest := by
  show c.bits.drop (c.pos + taken.length) = rest
  rw [← List.drop_drop, hbits, List.drop_left]

/-- Bits that remain lie inside the channel. -/
theorem InChannel.remaining_length {c : InChannel} {l : List Bool} (hbits : c.bits.drop c.pos = l) :
    c.bits.length - c.pos = l.length := by
  rw [← hbits, List.length_drop]

theorem head_answers_consumed {c : InChannel} (bits : Nat) {calls : Nat} (hcalls : CallsSucceed c (calls + 1)) :
    (c.consumed bits calls).answers.head? ≠ some false :=
  head_ne_false (n := 0) (answers_drop hcalls)

theorem head_answers_consumed_of_fails {c : InChannel} (bits : Nat) {calls : Nat}
    (hfail : c.answers[calls]? = some false) : (c.consumed bits calls).answers.head? = some false :=
  List.head?_drop.trans hfail

theorem callsSucceed_mono {c : InChannel} {m n : Nat} (hcalls : CallsSucceed c n) (hmn : m ≤ n) : CallsSucceed c m :=
  fun b hb => hcalls b (List.take_subset_take_left _ hmn hb)

/-- A `ReadBit` that succeeds takes one bit (20_memory.md R63). -/
theorem readBit_succeeds {c : InChannel} {b : Bool} {rest : List Bool} (hanswer : c.answers.head? ≠ some false)
    (hbits : c.bits.drop c.pos = b :: rest) : c.readBit = (some b, c.consumed 1 1) := by
  rw [readBit_ok hanswer hbits, InChannel.consumed, List.drop_one]

/-! ### Calls that fail -/

/-- A `ReadBit` that the environment fails, or that finds no bit, moves nothing (20_memory.md R65). -/
theorem readBit_fails {c : InChannel} (hfail : c.answers.head? = some false ∨ c.bits.drop c.pos = []) :
    c.readBit = (none, c.consumed 0 1) := by
  obtain ⟨b, hsucceeds, hbit, -⟩ | ⟨-, h⟩ := readBit_cases c
  · obtain hfail | hend := hfail
    · exact absurd hfail hsucceeds
    · rw [← List.head?_drop, hend] at hbit
      cases hbit
  · rw [h, InChannel.consumed, List.drop_one, Nat.add_zero]

/-- A `ReadBits` that the environment fails, or that finds too few bits, moves the cursor by at most the bits asked for
(20_memory.md R65). -/
theorem readBits_fails {c : InChannel} {n : Nat}
    (hfail : c.answers.head? = some false ∨ c.bits.length < c.pos + n) :
    ∃ d ≤ n, c.readBits n = (none, { c.consumed d 1 with draws := c.draws + 1 }) := by
  obtain ⟨hsucceeds, hlen, -⟩ | ⟨-, d, hd, h⟩ := readBits_cases c n
  · obtain hfail | hend := hfail
    · exact absurd hfail hsucceeds
    · omega
  · exact ⟨d, hd, by rw [h, InChannel.consumed, List.drop_one]⟩

/-- Of `n` calls either all succeed or a first one fails. -/
theorem exists_first_failure (c : InChannel) (n : Nat) :
    ∃ j ≤ n, CallsSucceed c j ∧ (j = n ∨ c.answers[j]? = some false) := by
  induction n with
  | zero => exact ⟨0, le_refl 0, by simp [CallsSucceed], .inl rfl⟩
  | succ n ih =>
    obtain ⟨j, hj, hcalls, rfl | hfail⟩ := ih
    · by_cases hfail : c.answers[j]? = some false
      · exact ⟨j, Nat.le_succ j, hcalls, .inr hfail⟩
      · refine ⟨j + 1, le_refl _, fun b hb => ?_, .inl rfl⟩
        rw [List.take_add_one, List.mem_append] at hb
        obtain hb | hb := hb
        · exact hcalls b hb
        · rw [Option.mem_toList] at hb
          exact Bool.eq_true_of_not_eq_false fun h => hfail (h ▸ hb)
    · exact ⟨j, Nat.le_succ_of_le hj, hcalls, .inr hfail⟩

/-! ### The parts of a codeword in the channel -/

section
variable {c : InChannel} {q : Nat} {rem rest : List Bool}

/-- The prefix of a codeword in the channel (R159). -/
theorem readUnary_of_prefix (hcalls : CallsSucceed c (q + 1))
    (hbits : c.bits.drop c.pos = List.replicate q false ++ true :: rest) :
    readUnary (c.bits.length - c.pos) 0 c = (some q, c.consumed (q + 1) (q + 1)) := by
  have hlength : q < c.bits.length - c.pos := by
    rw [InChannel.remaining_length hbits, List.length_append, List.length_replicate, List.length_cons]
    omega
  rw [readUnary_ok 0 hcalls hbits hlength, Nat.zero_add]
  rfl

/-- What remains behind the prefix. -/
theorem drop_consumed_prefix (hbits : c.bits.drop c.pos = List.replicate q false ++ true :: rest) (calls : Nat) :
    (c.consumed (q + 1) calls).bits.drop (c.consumed (q + 1) calls).pos = rest := by
  have h := InChannel.drop_consumed (taken := List.replicate q false ++ [true]) (rest := rest) (by simpa using hbits)
    calls
  simpa using h

/-- What remains behind the remainder. -/
theorem drop_consumed_remainder (hbits : c.bits.drop c.pos = List.replicate q false ++ true :: (rem ++ rest))
    (calls : Nat) :
    (c.consumed (q + 1 + rem.length) calls).bits.drop (c.consumed (q + 1 + rem.length) calls).pos = rest := by
  have h := InChannel.drop_consumed (drop_consumed_prefix hbits calls) 0
  rwa [InChannel.consumed_consumed] at h

/-- The remainder of a codeword in the channel (R160). -/
theorem readBits_of_remainder (hcalls : CallsSucceed c (q + 2))
    (hbits : c.bits.drop c.pos = List.replicate q false ++ true :: (rem ++ rest)) :
    (c.consumed (q + 1) (q + 1)).readBits rem.length =
      (some (bitsValue rem), c.consumed (q + 1 + rem.length) (q + 2)) := by
  have hinside : (c.consumed (q + 1) (q + 1)).pos ≤ (c.consumed (q + 1) (q + 1)).bits.length := by
    have hlength := InChannel.remaining_length hbits
    simp only [List.length_append, List.length_replicate, List.length_cons] at hlength
    simp only [InChannel.consumed]
    omega
  rw [readBits_ok (head_answers_consumed _ hcalls) (drop_consumed_prefix hbits _) hinside, ← List.drop_one]
  exact congrArg (Prod.mk _) (c.consumed_consumed (q + 1) (q + 1) rem.length 1)

/-- With the prefix and the remainder in the channel the sign decides (R160 to R163): its call fails, or the byte is the
signed result. -/
theorem parseCodeword_of_prefix_of_remainder (signed : Bool) (hcalls : CallsSucceed c (q + 2))
    (hbits : c.bits.drop c.pos = List.replicate q false ++ true :: (rem ++ rest)) :
    parseCodeword signed rem.length c =
      (readSign signed (q * 2 ^ rem.length + bitsValue rem) (c.consumed (q + 1 + rem.length) (q + 2))).map
        (Option.map (signedResult (q * 2 ^ rem.length + bitsValue rem))) id := by
  rw [parseCodeword, readUnary_of_prefix (callsSucceed_mono hcalls (Nat.le_succ _)) hbits]
  simp only [readBits_of_remainder hcalls hbits]
  rcases readSign signed (q * 2 ^ rem.length + bitsValue rem) (c.consumed (q + 1 + rem.length) (q + 2)) with
    ⟨_ | negative, c₃⟩ <;> rfl

/-- The prefix in which a call fails fails the parse (R165). -/
theorem parseCodeword_of_prefix_fails (signed : Bool) (logBase : Nat) (hcalls : CallsSucceed c q)
    (hbits : c.bits.drop c.pos = List.replicate q false ++ rest) (hfail : c.answers[q]? = some false ∨ rest = []) :
    parseCodeword signed logBase c = (none, c.consumed q (q + 1)) := by
  rw [parseCodeword, readUnary_fails 0 hcalls hbits (le_refl _) hfail]
  rfl

/-- The remainder whose call fails fails the parse (R165). -/
theorem parseCodeword_of_remainder_fails (signed : Bool) {logBase : Nat} (hcalls : CallsSucceed c (q + 1))
    (hbits : c.bits.drop c.pos = List.replicate q false ++ true :: rest)
    (hfail : c.answers[q + 1]? = some false ∨ rest.length < logBase) :
    ∃ d ≤ logBase, parseCodeword signed logBase c =
      (none, { c.consumed (q + 1 + d) (q + 2) with draws := c.draws + 1 }) := by
  have hcall : (c.consumed (q + 1) (q + 1)).answers.head? = some false ∨
      (c.consumed (q + 1) (q + 1)).bits.length < (c.consumed (q + 1) (q + 1)).pos + logBase := by
    refine hfail.imp (head_answers_consumed_of_fails _) fun hshort => ?_
    have hlength := InChannel.remaining_length (drop_consumed_prefix hbits (q + 1))
    omega
  obtain ⟨d, hd, hread⟩ := readBits_fails hcall
  rw [InChannel.consumed_consumed] at hread
  refine ⟨d, hd, ?_⟩
  rw [parseCodeword, readUnary_of_prefix hcalls hbits]
  simp only [hread]
  rfl

end

/-! ### The sign -/

/-- The magnitude is 0 when the quotient and the remainder are (R162). -/
theorem quotient_remainder_eq_zero_iff {q logBase : Nat} {rem : List Bool} :
    q * 2 ^ logBase + bitsValue rem = 0 ↔ q = 0 ∧ ∀ b ∈ rem, b = false := by
  rw [Nat.add_eq_zero_iff, Nat.mul_eq_zero, bitsValue_eq_zero,
    or_iff_left (Nat.two_pow_pos logBase).ne']

theorem quotient_remainder_ne_zero {q logBase : Nat} {rem : List Bool} (h : q ≠ 0 ∨ ∃ b ∈ rem, b = true) :
    q * 2 ^ logBase + bitsValue rem ≠ 0 := by
  rw [Ne, quotient_remainder_eq_zero_iff]
  rintro ⟨hq, hrem⟩
  obtain hq' | ⟨b, hb, rfl⟩ := h
  · exact hq' hq
  · cases hrem true hb

theorem readSign_of_absent {signed : Bool} {m : Nat} (c : InChannel) (h : signed = false ∨ m = 0) :
    readSign signed m c = (some false, c) :=
  if_neg fun ⟨hsigned, hm⟩ => h.elim (fun hu => by simp [hu] at hsigned) hm

theorem readSign_of_present {m : Nat} (c : InChannel) (hm : m ≠ 0) : readSign true m c = c.readBit :=
  if_pos ⟨rfl, hm⟩

/-- The data of the response is the signed result (R163, R164). -/
theorem zext24_signedResult (m : Nat) (negative : Bool) :
    zext24 (signedResult m negative) =
      BitVec.ofNat 24 (if negative then (256 - m % 256) % 256 else m % 256) := by
  cases negative with
  | false => exact zext24_trunc8 m
  | true => exact zext24_neg8_trunc8 m

/-! ### Endings -/

section
variable {s : State} (hf : s.faultFlag = false) (hvalid : s.dec.valid = true)
include hf hvalid

theorem exec_rgdDec_of_parse {v : Byte} {dch : InChannel}
    (hparse : parseCodeword s.dec.signed s.dec.logBase.toNat s.dch = (some v, dch)) :
    exec .rgdDec s = .next (ended { s with dch := dch } 0 (zext24 v)) := by
  simp only [exec, execRgdDec, State.unlessLocked_of_clear hf, if_pos hvalid, hparse, complete_eq_ended]

theorem exec_rgdDec_of_parse_fails {dch : InChannel}
    (hparse : parseCodeword s.dec.signed s.dec.logBase.toNat s.dch = (none, dch)) :
    exec .rgdDec s = .next (ended { s with dch := dch } 2 0) := by
  simp only [exec, execRgdDec, State.unlessLocked_of_clear hf, if_pos hvalid, hparse, raise_eq_ended, codeBits]

end

end Sys2Proof.Machine

namespace Sys2Proof.Claims

open Machine

/-- Settles O33: the prefix and the remainder are read; the sign bit is read exactly when there is one (R162). -/
theorem decParsesACodeword : Obligations.DecParsesACodeword := by
  intro s q rem rest hf hvalid hlength
  rw [← hlength]
  refine ⟨fun hbits habsent hcalls => ?noSign, fun negative hbits hsigned hnonzero hcalls => ?sign⟩
  case noSign =>
    have hparse := parseCodeword_of_prefix_of_remainder s.dec.signed hcalls (rest := rest) (by simpa using hbits)
    rw [readSign_of_absent _ (habsent.imp_right quotient_remainder_eq_zero_iff.mpr), hlength] at hparse
    rw [exec_rgdDec_of_parse hf hvalid hparse, zext24_signedResult, hlength]
    simp only [InChannel.consumed, id, Bool.false_eq_true, if_false, Nat.add_assoc]
  case sign =>
    have hbits' : s.dch.bits.drop s.dch.pos = List.replicate q false ++ true :: (rem ++ (negative :: rest)) := by
      simpa using hbits
    have hparse := parseCodeword_of_prefix_of_remainder s.dec.signed (callsSucceed_mono hcalls (Nat.le_succ _)) hbits'
    rw [hsigned, readSign_of_present _ (quotient_remainder_ne_zero hnonzero),
      readBit_succeeds (head_answers_consumed _ hcalls) (drop_consumed_remainder hbits' _),
      InChannel.consumed_consumed, ← hsigned, hlength,
      show q + 1 + s.dec.logBase.toNat + 1 = q + 2 + s.dec.logBase.toNat by omega] at hparse
    rw [exec_rgdDec_of_parse hf hvalid hparse, zext24_signedResult, hlength]
    simp only [InChannel.consumed, id, Nat.add_assoc]

/-- Settles O34: the first call that fails is one of the prefix, the remainder's or the sign's; where only zeros remain
it is one of the prefix. -/
theorem decFailureKeepsWhatWasConsumed : Obligations.DecFailureKeepsWhatWasConsumed := by
  intro s hf hvalid
  refine ⟨fun q rest hbits hcalls hfail => ?inPrefix, fun q rest hbits hcalls hfail => ?inRemainder,
    fun q rem rest hbits hlength hsigned hnonzero hcalls hfail => ?atSign, fun q hbits => ?onlyZeros⟩
  case inPrefix =>
    exact exec_rgdDec_of_parse_fails hf hvalid (parseCodeword_of_prefix_fails _ _ hcalls hbits hfail)
  case inRemainder =>
    obtain ⟨d, hd, hparse⟩ := parseCodeword_of_remainder_fails s.dec.signed hcalls (by simpa using hbits) hfail
    refine ⟨_, exec_rgdDec_of_parse_fails hf hvalid hparse, rfl, rfl, rfl, ?_, ?_⟩ <;>
      simp only [InChannel.consumed] <;> omega
  case atSign =>
    have hbits' : s.dch.bits.drop s.dch.pos = List.replicate q false ++ true :: (rem ++ rest) := by simpa using hbits
    have hparse := parseCodeword_of_prefix_of_remainder s.dec.signed hcalls hbits'
    have hcall := hfail.imp (head_answers_consumed_of_fails (q + 1 + rem.length))
      (drop_consumed_remainder hbits' (q + 2)).trans
    rw [hsigned, readSign_of_present _ (quotient_remainder_ne_zero hnonzero), readBit_fails hcall,
      InChannel.consumed_consumed, ← hsigned, hlength] at hparse
    rw [exec_rgdDec_of_parse_fails hf hvalid hparse]
    simp only [InChannel.consumed, id, Nat.add_assoc, Nat.add_zero]
  case onlyZeros =>
    obtain ⟨j, hj, hcalls, hfail⟩ := exists_first_failure s.dch q
    have hsplit : s.dch.bits.drop s.dch.pos = List.replicate j false ++ List.replicate (q - j) false := by
      rw [hbits, List.replicate_append_replicate, Nat.add_sub_cancel' hj]
    have hparse := parseCodeword_of_prefix_fails s.dec.signed s.dec.logBase.toNat hcalls hsplit
      (hfail.symm.imp_right fun hall => by rw [hall, Nat.sub_self, List.replicate_zero])
    exact ⟨_, exec_rgdDec_of_parse_fails hf hvalid hparse, rfl, Nat.le_add_right _ _, Nat.add_le_add_left hj _⟩

end Sys2Proof.Claims
end

section
/-! PROOFS. The round trip of the codecs (43_rg_decoder.md R167): a codeword of the encoder decodes to its byte and is
consumed whole, and so does a sequence of codewords. -/

namespace Sys2Proof.Machine

open Claims

/-- Whether a codeword of the encoder is negative: in signed mode, for a byte of 128 or more (R80, R167). -/
def codewordNegative (signed : Bool) (val : Byte) : Bool := signed && decide (128 ≤ val.toNat)

theorem signedResult_magnitude (signed : Bool) (val : Byte) :
    signedResult (magnitude signed val) (codewordNegative signed val) = val := by
  have hval := val.isLt
  apply BitVec.eq_of_toNat_eq
  cases signed with
  | false => simp [codewordNegative, signedResult, magnitude, trunc8]
  | true =>
    by_cases hnegative : 128 ≤ val.toNat
    · simp only [codewordNegative, signedResult, magnitude, hnegative, neg8, trunc8, decide_true, Bool.and_self,
        if_true, and_self, BitVec.toNat_ofNat]
      omega
    · simp [codewordNegative, signedResult, magnitude, hnegative, trunc8]

/-- The sign part of a codeword is read back whole, by one call or by none (R162). -/
theorem readSign_of_signPart {signed : Bool} {val : Byte} {c : InChannel} {rest : List Bool}
    (hanswer : c.answers.head? ≠ some false) (hbits : c.bits.drop c.pos = signPart signed val ++ rest) :
    readSign signed (magnitude signed val) c =
      (some (codewordNegative signed val), c.consumed (signPart signed val).length (signPart signed val).length) := by
  by_cases hpresent : signed = true ∧ val ≠ 0
  · obtain ⟨rfl, hval⟩ := hpresent
    rw [signPart, if_pos ⟨rfl, hval⟩] at hbits ⊢
    rw [readSign_of_present _ (mt magnitude_eq_zero_iff.mp hval), readBit_succeeds hanswer hbits]
    rfl
  · have habsent : signed = false ∨ val = 0 := by
      rwa [not_and_or, Bool.not_eq_true, not_not] at hpresent
    have hnegative : codewordNegative signed val = false := by
      obtain rfl | rfl := habsent
      · rfl
      · cases signed <;> rfl
    rw [signPart, if_neg hpresent, hnegative, readSign_of_absent _ (habsent.imp_right magnitude_eq_zero_iff.mpr)]
    rfl

/-- A codeword of the encoder in the channel decodes to its byte and is consumed whole (R167). -/
theorem parseCodeword_codewordBits {signed : Bool} {logBase : Nat} {val : Byte} {c : InChannel} {rest : List Bool}
    (hanswers : ∀ b ∈ c.answers, b = true) (hbits : c.bits.drop c.pos = codewordBits signed logBase val ++ rest) :
    ∃ calls, parseCodeword signed logBase c =
      (some val, c.consumed (codewordBits signed logBase val).length calls) := by
  have hcalls : ∀ n, CallsSucceed c n := fun n b hb => hanswers b (List.mem_of_mem_take hb)
  rw [codewordBits_eq, List.append_assoc, List.cons_append, List.append_assoc] at hbits
  have hparse := parseCodeword_of_prefix_of_remainder signed (hcalls _) hbits
  have hsign := drop_consumed_remainder hbits (magnitude signed val / 2 ^ logBase + 2)
  rw [bitsValue_msbFirst, msbFirst_length, Nat.mod_mod, Nat.div_add_mod'] at hparse
  rw [msbFirst_length] at hsign
  rw [readSign_of_signPart (head_answers_consumed _ (hcalls _)) hsign, InChannel.consumed_consumed] at hparse
  rw [codewordBits_length]
  exact ⟨_, hparse.trans (congrArg (fun v => (some v, _)) (signedResult_magnitude signed val))⟩

/-- The codewords of a sequence of bytes under one configuration. -/
def codewordsBits (cfg : CodecConfig) (vs : List Byte) : List Bool :=
  vs.flatMap (codewordBits cfg.signed cfg.logBase.toNat)

theorem codewordsBits_cons (cfg : CodecConfig) (v : Byte) (vs : List Byte) :
    codewordsBits cfg (v :: vs) = codewordBits cfg.signed cfg.logBase.toNat v ++ codewordsBits cfg vs :=
  List.flatMap_cons

/-- One encoding step: the codeword is appended, and what the next step needs is kept (R144). -/
theorem exists_exec_rgeEnc (v : Byte) {s : State} (hf : s.faultFlag = false) (hvalid : s.enc.valid = true)
    (hanswers : ∀ b ∈ s.ech.answers, b = true) :
    ∃ x, exec (.rgeEnc v) s = .next x ∧ x.status = 0 ∧ x.faultFlag = false ∧ x.enc = s.enc ∧
      (∀ b ∈ x.ech.answers, b = true) ∧
      x.ech.bits = s.ech.bits ++ codewordBits s.enc.signed s.enc.logBase.toNat v := by
  have hanswer : s.ech.answers.head? ≠ some false := fun h => by
    cases hanswers false (List.mem_of_mem_head? h)
  exact ⟨_, encAppendsTheCodeword s v hf hvalid hanswer, rfl, hf, rfl,
    fun b hb => hanswers b (List.mem_of_mem_tail hb), rfl⟩

/-- Encoding a sequence of bytes appends their codewords. -/
theorem encodes_codewordsBits (vs : List Byte) {s : State} (hf : s.faultFlag = false) (hvalid : s.enc.valid = true)
    (hanswers : ∀ b ∈ s.ech.answers, b = true) :
    ∃ t, Encodes s vs t ∧ t.ech.bits = s.ech.bits ++ codewordsBits s.enc vs := by
  induction vs generalizing s with
  | nil => exact ⟨s, rfl, (List.append_nil _).symm⟩
  | cons v vs ih =>
    obtain ⟨x, hexec, hstatus, hf', henc, hanswers', hbits⟩ := exists_exec_rgeEnc v hf hvalid hanswers
    obtain ⟨t, hencodes, hbits'⟩ := ih hf' (henc ▸ hvalid) hanswers'
    refine ⟨t, ⟨x, hexec, hstatus, hencodes⟩, ?_⟩
    rw [hbits', hbits, henc, codewordsBits_cons, List.append_assoc]

/-- One decoding step: the codeword gives its byte and is consumed, and what the next step needs is kept (R166). -/
theorem exists_exec_rgdDec (v : Byte) {u : State} {rest : List Bool} (hf : u.faultFlag = false)
    (hvalid : u.dec.valid = true) (hanswers : ∀ b ∈ u.dch.answers, b = true)
    (hbits : u.dch.bits.drop u.dch.pos = codewordBits u.dec.signed u.dec.logBase.toNat v ++ rest) :
    ∃ x, exec .rgdDec u = .next x ∧ x.status = 0 ∧ x.res = v.setWidth 24 ∧ x.faultFlag = false ∧
      x.dec = u.dec ∧ (∀ b ∈ x.dch.answers, b = true) ∧ x.dch.bits.drop x.dch.pos = rest ∧
      x.dch.pos = u.dch.pos + (codewordBits u.dec.signed u.dec.logBase.toNat v).length := by
  obtain ⟨calls, hparse⟩ := parseCodeword_codewordBits hanswers hbits
  exact ⟨_, exec_rgdDec_of_parse hf hvalid hparse, rfl, rfl, hf, rfl,
    fun b hb => hanswers b (List.mem_of_mem_drop hb), InChannel.drop_consumed hbits calls, rfl⟩

/-- Decoding reads the codewords of a sequence of bytes back, and no bit more. -/
theorem decodes_codewordsBits (vs : List Byte) {u : State} {rest : List Bool} (hf : u.faultFlag = false)
    (hvalid : u.dec.valid = true) (hanswers : ∀ b ∈ u.dch.answers, b = true)
    (hbits : u.dch.bits.drop u.dch.pos = codewordsBits u.dec vs ++ rest) :
    ∃ x, Decodes u vs x ∧ x.dch.pos = u.dch.pos + (codewordsBits u.dec vs).length := by
  induction vs generalizing u with
  | nil => exact ⟨u, rfl, rfl⟩
  | cons v vs ih =>
    rw [codewordsBits_cons, List.append_assoc] at hbits
    obtain ⟨x, hexec, hstatus, hres, hf', hdec, hanswers', hbits', hpos⟩ :=
      exists_exec_rgdDec v hf hvalid hanswers hbits
    obtain ⟨y, hdecodes, hpos'⟩ := ih hf' (hdec ▸ hvalid) hanswers' (hdec ▸ hbits')
    refine ⟨y, ⟨x, hexec, hstatus, hres, hdecodes⟩, ?_⟩
    rw [hpos', hpos, hdec, codewordsBits_cons, List.length_append, Nat.add_assoc]

end Sys2Proof.Machine

namespace Sys2Proof.Claims

open Machine

/-- Settles O35: the encoder appends the codewords of the bytes, and the decoder, of the same configuration, reads them
back one by one. -/
theorem codecRoundTrip : Obligations.CodecRoundTrip := by
  intro s u vs rest hf hf' hvalid _ hconfig hanswers hanswers'
  obtain ⟨t, hencodes, hbits⟩ := encodes_codewordsBits vs hf hvalid hanswers
  rw [← hconfig] at hbits hvalid
  exact ⟨t, codewordsBits u.dec vs, hencodes, hbits, decodes_codewordsBits vs hf' hvalid hanswers'⟩

end Sys2Proof.Claims
end

section
/-! PROOFS. The system commands (44_system.md R175 to R177): how `NOP`, `MTF.SETSIZE` and `RDCSR` end, the fields of the
register images, and the words of these opcodes with a 1 in the zero field. -/

namespace Sys2Proof.Machine

open Claims

/-! ### Words with a 1 in the zero field (30_encoding.md R75) -/

/-- The rows have one operand width per opcode, so a word whose operand exceeds its row's width is refused. -/
theorem decode_of_operand_ge {w : Word} (i : Instr) (hop : opOf w = i.opcode.toNat)
    (harg : 2 ^ i.operandBits ≤ argOf w) : decode w = .error .nonzeroField := by
  rw [opOf, ← opField_toNat, BitVec.toNat_inj] at hop
  rw [argOf, ← argField_toNat] at harg
  have hbits : ∀ n, (opField w, n) ∈ rowForms → n = i.operandBits := fun n hn =>
    congrArg Prod.snd (rowForms_of_opcode_eq _ hn _ (form_mem_rowForms i) hop)
  have hd := decode_decoded w
  generalize decode w = r at hd ⊢
  cases hd with
  | nonzero => rfl
  | @command j _ hopj hargj =>
    have hlt := operand_lt j
    rw [hbits j.operandBits (hopj ▸ form_mem_rowForms j), hargj] at hlt
    omega
  | reserved hres =>
    have hlt : i.opcode.toNat < 0x0D := rowForms_opcode_lt _ (form_mem_rowForms i)
    rw [← hop] at hlt
    omega
  | csr hcsr hlt =>
    rw [← hbits 8 (hcsr ▸ form_mem_rowForms (.rdcsr 0))] at harg
    omega

/-! ### The register images (10_state.md R24, 44_system.md R177) -/

/-- The fields of `ECFG` and `DCFG`; the reserved fields are 0. -/
theorem configImage_fields (c : CodecConfig) :
    (configImage c).extractLsb' 0 3 = c.logBase ∧ (configImage c).extractLsb' 3 5 = 0 ∧
      (configImage c).getLsbD 8 = c.signed ∧ (configImage c).getLsbD 9 = c.valid ∧
      (configImage c).extractLsb' 10 8 = baseBits c ∧ (configImage c).extractLsb' 18 6 = 0 := by
  unfold configImage
  simp only [BitVec.extractLsb'_append_eq_of_le, BitVec.extractLsb'_append_eq_right, BitVec.getLsbD_append,
    Nat.reduceLeDiff, Nat.reduceSub]
  simp

/-- The fields of the register `STATUS`; the reserved field is 0. -/
theorem statusImage_fields (s : State) :
    (statusImage s).extractLsb' 0 8 = s.status ∧ (statusImage s).getLsbD 8 = s.faultFlag ∧
      (statusImage s).extractLsb' 9 15 = 0 := by
  unfold statusImage
  simp only [BitVec.extractLsb'_append_eq_of_le, BitVec.extractLsb'_append_eq_right, BitVec.getLsbD_append,
    Nat.reduceLeDiff, Nat.reduceSub]
  simp

/-- `BASE` is the power of two that `LOGBASE` names: three bits of `LOGBASE` cannot overflow its byte (R36). -/
theorem toNat_baseBits (c : CodecConfig) : (baseBits c).toNat = if c.valid then 2 ^ c.logBase.toNat else 0 := by
  have hfits : 2 ^ c.logBase.toNat < 2 ^ 8 := Nat.pow_lt_pow_right (by decide) (by omega)
  unfold baseBits
  split
  · rw [BitVec.natCast_eq_ofNat, BitVec.toNat_ofNat, Nat.one_shiftLeft, Nat.mod_eq_of_lt hfits]
  · rfl

/-! ### `RDCSR` (R177) -/

theorem exec_rdcsr_of_csrValue_some {s : State} {csr : Byte} {d : Data} (h : csrValue s csr = some d) :
    exec (.rdcsr csr) s = .next (answered s 0 d) := by
  rw [exec, execRdcsr, h]
  rfl

theorem exec_rdcsr_of_csrValue_none {s : State} {csr : Byte} (h : csrValue s csr = none) :
    exec (.rdcsr csr) s = .next (answered s 3 0) := by
  rw [exec, execRdcsr, h]
  rfl

theorem csrValue_of_four_le (s : State) {csr : Byte} (h : 4 ≤ csr.toNat) : csrValue s csr = none := by
  unfold csrValue
  split
  case h_5 => rfl
  all_goals omega

theorem csrValue_size (s : State) {csr : Byte} (h : csr.toNat = 0) : csrValue s csr = some s.size := by
  simp [csrValue, h]

theorem csrValue_status (s : State) {csr : Byte} (h : csr.toNat = 3) : csrValue s csr = some (statusImage s) := by
  simp [csrValue, h]

/-- Register 1 is the encoder's configuration, register 2 the decoder's. -/
theorem csrValue_config {s : State} {csr : Byte} {c : CodecConfig}
    (h : csr.toNat = 1 ∧ c = s.enc ∨ csr.toNat = 2 ∧ c = s.dec) : csrValue s csr = some (configImage c) := by
  obtain ⟨h, rfl⟩ | ⟨h, rfl⟩ := h <;> simp [csrValue, h]

/-! ### `NOP` and `MTF.SETSIZE` (R175, R176) -/

theorem decode_of_opOf_zero {w : Word} (hop : opOf w = 0) :
    decode w = if argOf w = 0 then .ok .nop else .error .nonzeroField := by
  split
  · next harg =>
    have hw : w = encode .nop := BitVec.eq_of_toNat_eq (show w.toNat = 0 by unfold opOf argOf at *; omega)
    rw [hw, decode_encode rfl]
  · next harg => exact decode_of_operand_ge .nop hop (Nat.one_le_iff_ne_zero.mpr harg)

theorem exec_mtfSetsize (s : State) (size : Data) :
    exec (.mtfSetsize size) s =
      .next (if s.faultFlag then ended s 5 0 else ended { s with size := size } 0 0) := by
  split
  · next hf => exact exec_of_locked rfl hf
  · next hf => exact congrArg Host.Outcome.next (State.unlessLocked_of_clear (Bool.eq_false_of_not_eq_true hf) _)

end Sys2Proof.Machine

namespace Sys2Proof.Claims

open Machine

/-- Settles O37: each register number selects its image, and the image has its fields in place. -/
theorem rdcsrReadsTheRegisters : Obligations.RdcsrReadsTheRegisters := by
  intro s csr
  refine ⟨fun h => exec_rdcsr_of_csrValue_some (csrValue_size s h), fun c h => ?config, fun h => ?status,
    fun h => exec_rdcsr_of_csrValue_none (csrValue_of_four_le s h), fun w hop harg => ?illegal⟩
  case config =>
    obtain ⟨hlogBase, hlow, hsigned, hvalid, hbase, hhigh⟩ := configImage_fields c
    exact ⟨_, exec_rdcsr_of_csrValue_some (csrValue_config h), hlogBase, hlow, hsigned, hvalid,
      by rw [hbase, toNat_baseBits], hhigh⟩
  case status => exact ⟨_, exec_rdcsr_of_csrValue_some (csrValue_status s h), statusImage_fields s⟩
  case illegal => exact ⟨decode_of_operand_ge (.rdcsr 0) hop harg, by rw [rejectWord_eq_ite, if_pos hop]⟩

/-- Settles O36: `NOP` ends without the lock, `MTF.SETSIZE` behind it. -/
theorem nopAndSetsizeComplete : Obligations.NopAndSetsizeComplete :=
  ⟨fun s => congrArg Host.Outcome.next (complete_eq_ended s 0), fun _ => decode_of_opOf_zero, exec_mtfSetsize⟩

end Sys2Proof.Claims
end


section
/-! PROOFS. Errors (60_exceptions.md): the range error of the block commands (R189) and the fault lock (R199). -/

namespace Sys2Proof.Machine

open Claims

/-! ### A block longer than its operand (R189) -/

/-- A non-zero `SIZE` above `len` is a traversal length that the test of the block commands refuses (R116, R117). -/
theorem lt_traversal_of_lt_size {size len : Data} (hne : size ≠ 0) (hlt : len.toNat < size.toNat) :
    len < traversal size len := by
  obtain ⟨hzero, -, -⟩ | ⟨-, -, hrange⟩ := traversal_cases size len
  · exact absurd hzero hne
  · exact hrange.mpr hlt

/-- `MTF.INV` refuses a traversal length above `len` before its loop (41_mtf_inverse.md R128). -/
theorem exec_mtfInv_of_gt {s : State} {len : Data} (hf : s.faultFlag = false) (hlen : len < traversal s.size len) :
    exec (.mtfInv len) s = .next (s.raise .range) := by
  simp only [exec, execMtfInv, State.unlessLocked_of_clear hf, gt_iff_lt, if_pos hlen]

/-! ### Illegal words under the lock (R193, R199) -/

@[simp] theorem State.rejectWord_faultFlag (s : State) (w : Word) : (s.rejectWord w).faultFlag = s.faultFlag := by
  rw [State.rejectWord_eq]

/-- An illegal word is answered `E_ILLEGAL` whatever `FAULT` holds (R193). -/
@[simp] theorem State.rejectWord_responses (s : State) (w : Word) :
    (s.rejectWord w).responses = s.responses ++ [responseWord .illegal 0] := by
  rw [State.rejectWord_eq]

end Sys2Proof.Machine

namespace Sys2Proof.Claims

open Machine

/-- Settles O38: the lock turns commands away, no command's effect clears `FAULT`, and an illegal word does not reach
the lock. -/
theorem faultLock : Obligations.FaultLock :=
  ⟨fun _ _ hf hi => exec_of_locked hi hf, fun _ _ _ hexec => (effect_of_exec hexec).faultFlag_stays,
    fun s w => ⟨s.rejectWord_faultFlag w, s.rejectWord_responses w⟩, State.applyReset_faultFlag⟩

/-- Settles O19: both block commands compare the traversal length with `len` before they begin. -/
theorem blockCommandsRefuseALongSize : Obligations.BlockCommandsRefuseALongSize := by
  intro s len hf hne hlt
  have hlen : len < traversal s.size len := lt_traversal_of_lt_size hne hlt
  exact ⟨exec_mtfFwd_of_gt hf hlen, exec_mtfInv_of_gt hf hlen⟩

end Sys2Proof.Claims
end

section
/-! PROOFS. Reset inside a command (70_reset_and_hazards.md R212): what the cut command has moved lies between the state
before it and the state after the whole command. -/

namespace Sys2Proof.Machine

open Claims

/-! ### What the whole command moves -/

/-- The locked core moves no byte of `BUF` (60_exceptions.md R199). -/
theorem buf_of_exec_locked {i : Instr} {s u : State} (hf : s.faultFlag = true) (h : exec i s = .next u) :
    u.buf = s.buf := by
  cases hi : ignoresFault i with
  | false =>
    obtain rfl := Host.Outcome.next.inj ((exec_of_locked hi hf).symm.trans h)
    rfl
  | true =>
    refine (effect_of_exec h).buf_eq ?_
    cases i with
    | nop | rdcsr => rfl
    | _ => cases hi

section
variable {s u : State} (hf : s.faultFlag = false)
include hf

/-- `MTF.FWD` leaves what its loop has written, whether or not a step failed (R115, 60_exceptions.md R195). -/
theorem buf_of_exec_mtfFwd {len : Data} (hlen : ¬len < traversal s.size len) (h : exec (.mtfFwd len) s = .next u) :
    u.buf = (fwdLoop (traversal s.size len).toNat 0 (resetbal s.rank) s.buf).2.2 := by
  simp only [exec, execMtfFwd, State.unlessLocked_of_clear hf, gt_iff_lt, if_neg hlen] at h
  split at h <;> (next hloop => cases h; rw [hloop]; rfl)

theorem buf_of_exec_mtfInv {len : Data} (hlen : ¬len < traversal s.size len) (h : exec (.mtfInv len) s = .next u) :
    u.buf = (invLoop (traversal s.size len).toNat 0 identityIdx s.buf).2 := by
  obtain rfl := Host.Outcome.next.inj ((exec_mtfInv_of_loop hf hlen rfl).symm.trans h)
  rfl

/-- `RGE.ENC` leaves the channel as its one write does, succeeding or not (R144, R145). -/
theorem ech_of_exec_rgeEnc {v : Byte} (hvalid : s.enc.valid = true) (h : exec (.rgeEnc v) s = .next u) :
    u.ech = (writeCodeword s.enc v s.ech).2 := by
  simp only [exec, execRgeEnc, State.unlessLocked_of_clear hf, if_pos hvalid] at h
  split at h <;> (next hwrite => cases h; rw [hwrite]; rfl)

/-- `RGD.DEC` leaves the channel as its reads do, succeeding or not (R165, R166). -/
theorem dch_of_exec_rgdDec (hvalid : s.dec.valid = true) (h : exec .rgdDec s = .next u) :
    u.dch = (parseCodeword s.dec.signed s.dec.logBase.toNat s.dch).2 := by
  simp only [exec, execRgdDec, State.unlessLocked_of_clear hf, if_pos hvalid] at h
  split at h <;> (next hparse => cases h; rw [hparse]; rfl)

end

/-- A codeword's write appends to the channel or, failing, leaves its bits (20_memory.md R60). -/
theorem bits_prefix_writeCodeword (c : CodecConfig) (v : Byte) (ech : OutChannel) :
    ech.bits <+: (writeCodeword c v ech).2.bits := by
  unfold writeCodeword
  obtain ⟨-, e⟩ | ⟨-, e⟩ := writeBits_cases ech (codeword c.signed c.logBase.toNat v).1
    (codeword c.signed c.logBase.toNat v).2
  · rw [e]
    exact List.prefix_append _ _
  · rw [e]

/-- No command takes bits out of the output channel (20_memory.md R58). -/
theorem Effect.ech_bits_prefix {s t : State} {i : Instr} (h : Effect s i t) : s.ech.bits <+: t.ech.bits := by
  cases h with
  | @rgeEnc v _ hwrite | @rgeEncFails v _ hwrite =>
    have hprefix := bits_prefix_writeCodeword s.enc v s.ech
    rwa [hwrite] at hprefix
  | _ => exact List.prefix_rfl

/-! ### Between before and after -/

/-- The surroundings in `c` are those of `s` with a first part, measured by `n` in `BUF`, of what was moved from `s` to
`u`; no response was given (R212). -/
structure CutBetween (n : Nat) (s c u : State) : Prop where
  buf_moved : ∀ a < n, c.buf.readByte a = u.buf.readByte a
  buf_kept : ∀ a, n ≤ a → c.buf.readByte a = s.buf.readByte a
  ech_kept : s.ech.bits <+: c.ech.bits
  ech_moved : c.ech.bits <+: u.ech.bits
  dch_bits : c.dch.bits = s.dch.bits
  dch_kept : s.dch.pos ≤ c.dch.pos
  dch_moved : c.dch.pos ≤ u.dch.pos
  responses : c.responses = s.responses

section
variable {s u : State} {i : Instr} {n : Nat}

/-- A cut that touches `BUF` alone. -/
theorem cutBetween_of_buf (h : Effect s i u) {m : Memory} (hmoved : ∀ a < n, m.readByte a = u.buf.readByte a)
    (hkept : ∀ a, n ≤ a → m.readByte a = s.buf.readByte a) : CutBetween n s { s with buf := m } u :=
  ⟨hmoved, hkept, List.prefix_rfl, h.ech_bits_prefix, rfl, le_rfl, h.dch_after.2.2, rfl⟩

/-- A cut block command has run its loop over the first elements: after `k` of them they hold what the whole loop leaves
there, and nothing past them is touched (R115, R126). -/
theorem cutBetween_of_loop (h : Effect s i u) {loop : Nat → Memory} {count : Nat} (hwhole : u.buf = loop count)
    (hprefix : ∀ k ≤ count, ∀ a < k, (loop k).readByte a = (loop count).readByte a)
    (hframe : ∀ k ≤ count, ∀ a, k ≤ a → (loop k).readByte a = s.buf.readByte a) :
    CutBetween n s { s with buf := loop (min n count) } u := by
  obtain hn | hn := Nat.le_total n count
  · rw [Nat.min_eq_left hn]
    exact cutBetween_of_buf h (by rw [hwhole]; exact hprefix n hn) (hframe n hn)
  · rw [Nat.min_eq_right hn]
    exact cutBetween_of_buf h (fun _ _ => by rw [hwhole]) fun a ha => hframe count le_rfl a (hn.trans ha)

/-- A command that leaves `BUF` alone, cut before it moved anything. -/
theorem cutBetween_self (h : Effect s i u) (hbuf : u.buf = s.buf) : CutBetween n s s u :=
  cutBetween_of_buf h (fun _ _ => by rw [hbuf]) fun _ _ => rfl

end

/-! ### The cut command -/

/-- A command cut short reads neither the port nor `ARG`. -/
theorem State.cutCommand_accept (s : State) (w : Word) (rest : List PortEvent) (i : Instr) (n : Nat) :
    (s.accept w rest).cutCommand i n = (s.cutCommand i n).accept w rest := by
  unfold State.cutCommand
  rw [apply_ite (State.accept · w rest)]
  refine if_congr Iff.rfl rfl ?_
  cases i with
  | mtfFwd | mtfInv | rgeEnc | rgdDec =>
    dsimp only
    rw [apply_ite (State.accept · w rest)]
    rfl
  | _ => rfl

section
variable {s u : State} (hf : s.faultFlag = false) (n : Nat)
include hf

/-- The elements of a cut `MTF.FWD` are rewritten in ascending order (R115). -/
theorem cutCommand_mtfFwd_between (hbuf : s.buf.wf) {len : Data} (h : exec (.mtfFwd len) s = .next u) :
    CutBetween n s (s.cutCommand (.mtfFwd len) n) u := by
  unfold State.cutCommand
  rw [if_neg (Bool.eq_false_iff.mp hf)]
  dsimp only
  split
  · next hlen =>
    obtain rfl := Host.Outcome.next.inj ((exec_mtfFwd_of_gt hf hlen).symm.trans h)
    exact cutBetween_self (effect_of_exec h) rfl
  · next hlen =>
    have hspace := traversal_le_bufSize s.size len
    exact cutBetween_of_loop (loop := fun k => (fwdLoop k 0 _ s.buf).2.2) (effect_of_exec h)
      (buf_of_exec_mtfFwd hf hlen h) (fun k hk a ha => fwdLoop_prefix hk 0 _ hbuf hspace a (by omega))
      fun k hk a ha => (fwdLoop_frame k 0 _ hbuf (by omega)).2 a (by omega)

/-- The elements of a cut `MTF.INV` are rewritten in ascending order (R126). -/
theorem cutCommand_mtfInv_between (hbuf : s.buf.wf) {len : Data} (h : exec (.mtfInv len) s = .next u) :
    CutBetween n s (s.cutCommand (.mtfInv len) n) u := by
  unfold State.cutCommand
  rw [if_neg (Bool.eq_false_iff.mp hf)]
  dsimp only
  split
  · next hlen =>
    obtain rfl := Host.Outcome.next.inj ((exec_mtfInv_of_gt hf hlen).symm.trans h)
    exact cutBetween_self (effect_of_exec h) rfl
  · next hlen =>
    have hspace := traversal_le_bufSize s.size len
    exact cutBetween_of_loop (loop := fun k => (invLoop k 0 _ s.buf).2) (effect_of_exec h)
      (buf_of_exec_mtfInv hf hlen h) (fun k hk a ha => invLoop_prefix hk 0 _ hbuf hspace a (by omega))
      fun k hk a ha => (invLoop_frame k 0 _ hbuf (by omega)).2 a (by omega)

theorem cutCommand_rgeEnc_between {v : Byte} (h : exec (.rgeEnc v) s = .next u) :
    CutBetween n s (s.cutCommand (.rgeEnc v) n) u := by
  have hbuf := (effect_of_exec h).buf_eq rfl
  unfold State.cutCommand
  rw [if_neg (Bool.eq_false_iff.mp hf)]
  dsimp only
  split
  · next hvalid =>
    have hprefix := bits_prefix_writeCodeword s.enc v s.ech
    have hech := ech_of_exec_rgeEnc hf hvalid h
    exact {
      buf_moved _ _ := by rw [hbuf]
      buf_kept _ _ := rfl
      ech_kept := List.prefix_take_iff.mpr ⟨hprefix, Nat.le_add_right _ _⟩
      ech_moved := hech ▸ List.take_prefix _ _
      dch_bits := rfl
      dch_kept := le_rfl
      dch_moved := (effect_of_exec h).dch_after.2.2
      responses := rfl }
  · exact cutBetween_self (effect_of_exec h) hbuf

theorem cutCommand_rgdDec_between (h : exec .rgdDec s = .next u) : CutBetween n s (s.cutCommand .rgdDec n) u := by
  have hbuf := (effect_of_exec h).buf_eq rfl
  unfold State.cutCommand
  rw [if_neg (Bool.eq_false_iff.mp hf)]
  dsimp only
  split
  · next hvalid =>
    obtain ⟨-, hbits, hpos⟩ := parseCodeword_after s.dec.signed s.dec.logBase.toNat s.dch
    have hdch := dch_of_exec_rgdDec hf hvalid h
    exact {
      buf_moved _ _ := by rw [hbuf]
      buf_kept _ _ := rfl
      ech_kept := List.prefix_rfl
      ech_moved := (effect_of_exec h).ech_bits_prefix
      dch_bits := hbits
      dch_kept := Nat.le_min.mpr ⟨Nat.le_add_right _ _, hpos⟩
      dch_moved := hdch ▸ Nat.min_le_right _ _
      responses := rfl }
  · exact cutBetween_self (effect_of_exec h) hbuf

end

/-- A cut command has moved a first part of what the whole command moves (R212). -/
theorem cutCommand_between {i : Instr} {s u : State} (hbuf : s.buf.wf) (h : exec i s = .next u) (n : Nat) :
    CutBetween n s (s.cutCommand i n) u := by
  cases hf : s.faultFlag with
  | true =>
    simp only [State.cutCommand, hf, if_true]
    exact cutBetween_self (effect_of_exec h) (buf_of_exec_locked hf h)
  | false =>
    cases i with
    | mtfFwd len => exact cutCommand_mtfFwd_between hf n hbuf h
    | mtfInv len => exact cutCommand_mtfInv_between hf n hbuf h
    | rgeEnc v => exact cutCommand_rgeEnc_between hf n h
    | rgdDec => exact cutCommand_rgdDec_between hf n h
    | _ =>
      simp only [State.cutCommand, ite_self]
      exact cutBetween_self (effect_of_exec h) ((effect_of_exec h).buf_eq rfl)

/-! ### The step -/

/-- Reset cuts a legal word's command; what the command moved before stays (R212). -/
theorem step_of_commandCut {s : State} {w : Word} {n : Nat} {rest : List PortEvent} {i : Instr}
    (hp : s.port = .commandCut w n :: rest) (hd : decode w = .ok i) :
    step s = .next ((s.cutCommand i n).accept w rest).applyReset := by
  simp only [step, hp, hd, State.cutCommand_accept]

/-- Reset cuts an illegal word before it is answered (R212). -/
theorem step_of_commandCut_illegal {s : State} {w : Word} {n : Nat} {rest : List PortEvent} {e : DecodeError}
    (hp : s.port = .commandCut w n :: rest) (hd : decode w = .error e) :
    step s = .next (s.accept w rest).applyReset := by
  simp only [step, hp, hd]

end Sys2Proof.Machine

namespace Sys2Proof.Claims

open Machine

/-- Settles O9: reset leaves the surroundings as the cut command did, between the state before the command and the state
after the whole of it; an illegal word moves nothing. -/
theorem resetInsideACommand : Obligations.ResetInsideACommand := by
  intro s w n rest hp hbuf
  cases hd : decode w with
  | ok i =>
    obtain ⟨u, hu⟩ := exec_next i s
    have hcut := cutCommand_between hbuf hu n
    refine ⟨_, step_of_commandCut hp hd, applyReset_resetTable _, hcut.responses, rfl, hcut.ech_kept, hcut.dch_kept,
      hcut.dch_bits, hcut.buf_kept, fun j v hj hv => ?whole, fun hblock a => ?sameBytes⟩
    case whole =>
      obtain rfl := Except.ok.inj hj
      obtain rfl := Host.Outcome.next.inj (hu.symm.trans hv)
      exact ⟨hcut.buf_moved, hcut.ech_moved, hcut.dch_moved⟩
    case sameBytes =>
      obtain ha | ha := Nat.lt_or_ge a n
      · exact (hcut.buf_moved a ha).trans (by rw [(effect_of_exec hu).buf_eq (hblock i rfl)])
      · exact hcut.buf_kept a ha
  | error e =>
    exact ⟨_, step_of_commandCut_illegal hp hd, applyReset_resetTable _, rfl, rfl, List.prefix_rfl, le_rfl, rfl,
      fun _ _ => rfl, fun i u hi => (nomatch hi), fun _ _ => rfl⟩

end Sys2Proof.Claims
end
